-- ==== Sys2Proof/Word.lean ====
section
/-! DEFINITION. The two data widths of the core (00_scope.md R6, R8): the 32-bit word and the 8-bit byte.
All arithmetic on words is unsigned modulo 2^32 (R8, R9, R152); `BitVec`'s `+`, `<<<`, `>>>`, `~~~`, `&&&`, `|||`
and `^^^` are the spec's `add32`, `shl32`, `shr32`, `not32`, `&`, `|` and `^`. -/

namespace Sys2Proof

/-- A `u32`: the unit of the cipher, of the table, of WM and of every register (R6, R8). -/
abbrev Word := BitVec 32

/-- A `u8`: one element of BM (R6, R8). -/
abbrev Byte := BitVec 8

end Sys2Proof
end

