-- ==== Sys2Proof/Syntax.lean ====
section
/-! DEFINITION. The commands of the core, one constructor for each row of spec/opcode_table.json (30_encoding.md R59), and
the actions of the host on the core's address spaces (20_memory.md R36 to R39), through which commands arrive. -/

namespace Sys2Proof

/-- The configured byte order of the bytes-to-word conversion (10_state.md R17, 30_encoding.md R56):
0 is little, 1 is big. -/
inductive Endian where
  | little
  | big
  deriving DecidableEq, Repr

/-- The ten commands (30_encoding.md R59). `absent` is the command word's ABS bit (R57); `kind` is its raw KIND field (R55),
of which values above 3 are legal encodings that fail in execution (R63). -/
inductive Instr where
  /-- INIT: `new_security(endianness)` (R74). -/
  | init (endian : Endian)
  /-- HASH: `hash(ctx, s, kind)` (R81). -/
  | hash (kind : Nat) (absent : Bool)
  /-- ENC1: `encrypt_word(ctx, value, key)` (R96). -/
  | enc1
  /-- DEC1: `decrypt_word(ctx, value, key)` (R97). -/
  | dec1
  /-- ENCW: `encrypt_words(ctx, values, key)` (R94). -/
  | encw (absent : Bool)
  /-- DECW: `decrypt_words(ctx, values, key)` (R95). -/
  | decw (absent : Bool)
  /-- ENCB: `encrypt_bytes(ctx, data, key)` (R112). -/
  | encb (absent : Bool)
  /-- DECB: `decrypt_bytes(ctx, data, key)` (R113). -/
  | decb (absent : Bool)
  /-- ENCBUF: `encrypt_buffer` (R114). -/
  | encbuf (absent : Bool)
  /-- DECBUF: `decrypt_buffer` (R115). -/
  | decbuf (absent : Bool)
  deriving DecidableEq, Repr

/-- One action of the host, the agent that drives the core (00_scope.md R11, 20_memory.md R35 to R39, R49).
A REG access carries its width in bits, because R36 gives a meaning to 32-bit accesses only; an access to another
space moves exactly one element (R37 to R39). -/
inductive HostAction where
  | regRead (offset width : Nat)
  /-- A write of CMD (offset 0) issues a command. -/
  | regWrite (offset width : Nat) (value : Word)
  | tromRead (index : Nat)
  | tromWrite (index : Nat) (value : Word)
  | wmRead (index : Nat)
  | wmWrite (index : Nat) (value : Word)
  | bmRead (address : Nat)
  | bmWrite (address : Nat) (value : Byte)
  /-- The platform applies reset, between commands (70_reset_and_hazards.md R139). -/
  | reset
  deriving DecidableEq, Repr

end Sys2Proof
end

