-- ==== Sys2Proof/WellFormed.lean ====
section
/-! DEFINITION. Which terms of `Instr` an encoding can express (30_encoding.md R53). -/

namespace Sys2Proof

/-- KIND is an 8-bit field (R53, R55); every other operand takes exactly the values its field can hold. -/
def Instr.wellFormed : Instr → Bool
  | .init _ => true
  | .hash kind _ => decide (kind < 256)
  | .enc1 => true
  | .dec1 => true
  | .encw _ => true
  | .decw _ => true
  | .encb _ => true
  | .decb _ => true
  | .encbuf _ => true
  | .decbuf _ => true

end Sys2Proof
end

