-- ==== Sys2Proof/Decode.lean ====
section
/-! DEFINITION. The command word (30_encoding.md): the opcode map, the decoder and, after it, the encoder. -/

namespace Sys2Proof

/-- The ten rows of the opcode map, by mnemonic (R59). -/
inductive Op where
  | init
  | hash
  | enc1
  | dec1
  | encw
  | decw
  | encb
  | decb
  | encbuf
  | decbuf
  deriving DecidableEq, Repr

/-- A row of the opcode map: a word `c` selects it iff `c & mask = match` (R59). -/
structure OpcodeRow where
  op : Op
  matchWord : Word
  mask : Word
  deriving DecidableEq, Repr

/-- Why a command word is illegal (R62). Every reason raises the same error, ILLEGAL (60_exceptions.md R124). -/
inductive Illegal where
  /-- OP is one of 0x0, 0x3, 0xC, 0xD, 0xE, 0xF. -/
  | unknownOpcode
  /-- A bit of 7:4 or 31:18 is 1 (R58). -/
  | reservedBit
  /-- A field the command does not use is nonzero (R58). -/
  | unusedField
  deriving DecidableEq, Repr

/-- R59, row by row. -/
def opcodeRows : List OpcodeRow :=
  [ ⟨.init,   0x00000001, 0xFFFEFFFF⟩,
    ⟨.hash,   0x00000002, 0xFFFD00FF⟩,
    ⟨.enc1,   0x00000004, 0xFFFFFFFF⟩,
    ⟨.dec1,   0x00000005, 0xFFFFFFFF⟩,
    ⟨.encw,   0x00000006, 0xFFFDFFFF⟩,
    ⟨.decw,   0x00000007, 0xFFFDFFFF⟩,
    ⟨.encb,   0x00000008, 0xFFFDFFFF⟩,
    ⟨.decb,   0x00000009, 0xFFFDFFFF⟩,
    ⟨.encbuf, 0x0000000A, 0xFFFDFFFF⟩,
    ⟨.decbuf, 0x0000000B, 0xFFFDFFFF⟩ ]

/-- `(c & mask) == match` (R59). -/
def OpcodeRow.selects (r : OpcodeRow) (c : Word) : Bool := c &&& r.mask == r.matchWord

/-- OP, bits 3:0 (R53, R54). -/
def opField (c : Word) : BitVec 4 := c.extractLsb' 0 4

/-- KIND, bits 15:8, as a number (R53, R55). -/
def kindField (c : Word) : Nat := (c.extractLsb' 8 8).toNat

/-- END, bit 16: 0 little, 1 big (R53, R56). -/
def endField (c : Word) : Endian := if c.getLsbD 16 then .big else .little

/-- ABS, bit 17 (R53, R57). -/
def absField (c : Word) : Bool := c.getLsbD 17

/-- The two reserved fields, bits 7:4 and 31:18, are zero (R53, R58). -/
def reservedZero (c : Word) : Bool := c.extractLsb' 4 4 == 0 && c.extractLsb' 18 14 == 0

/-- The command a word of the given row stands for (R60: the fields each command uses). -/
def operandsOf (c : Word) : Op → Instr
  | .init => .init (endField c)
  | .hash => .hash (kindField c) (absField c)
  | .enc1 => .enc1
  | .dec1 => .dec1
  | .encw => .encw (absField c)
  | .decw => .decw (absField c)
  | .encb => .encb (absField c)
  | .decb => .decb (absField c)
  | .encbuf => .encbuf (absField c)
  | .decbuf => .decbuf (absField c)

/-- The OP value appears in the opcode map (R59). -/
def opcodeKnown (c : Word) : Bool := opcodeRows.any fun r => r.matchWord.extractLsb' 0 4 == opField c

/-- The name of the first defect of a word that matches no row (R62). -/
def illegalReason (c : Word) : Illegal :=
  if !opcodeKnown c then .unknownOpcode
  else if !reservedZero c then .reservedBit
  else .unusedField

/-- The decode procedure of R65, for any 32-bit word: the row it matches, or the reason it is illegal. Decoding depends
on nothing but the word (R64). -/
def decode (c : Word) : Except Illegal Instr :=
  match opcodeRows.find? (fun r => r.selects c) with
  | some r => .ok (operandsOf c r.op)
  | none => .error (illegalReason c)

/-- The instruction the decoder reads from an opcode-table word of `nbits` bits. The command word is the 32-bit datum of
the CMD write (R19, R53), one word with no byte order, so its bits are the table's bits. -/
def decodeTableWord (nbits w : Nat) : Option Instr :=
  let c := w % 2 ^ nbits
  if c < 2 ^ 32 then
    match decode (BitVec.ofNat 32 c) with
    | .ok i => some i
    | .error _ => none
  else none

/-- The END bit of an endianness (R56). -/
def endianBit : Endian → BitVec 1
  | .little => 0
  | .big => 1

/-- The format CMD32 (R53), from bit 31 down to bit 0: 14 reserved bits, ABS, END, KIND, 4 reserved bits, OP. -/
def packCommand (op : BitVec 4) (kind : Byte) (endian : Endian) (absent : Bool) : Word :=
  0#14 ++ BitVec.ofBool absent ++ endianBit endian ++ kind ++ 0#4 ++ op

/-- The command word of a command (R53, R59); a field the command does not use is 0 (R58). -/
def encode : Instr → Word
  | .init endian => packCommand 0x1 0 endian false
  | .hash kind absent => packCommand 0x2 (BitVec.ofNat 8 kind) .little absent
  | .enc1 => packCommand 0x4 0 .little false
  | .dec1 => packCommand 0x5 0 .little false
  | .encw absent => packCommand 0x6 0 .little absent
  | .decw absent => packCommand 0x7 0 .little absent
  | .encb absent => packCommand 0x8 0 .little absent
  | .decb absent => packCommand 0x9 0 .little absent
  | .encbuf absent => packCommand 0xA 0 .little absent
  | .decbuf absent => packCommand 0xB 0 .little absent

end Sys2Proof
end

