-- ==== Sys2Proof/Config.lean ====
section
/-! DEFINITION. What the spec leaves open: the sizes of the two memories and the placement of the four spaces
(00_scope.md R7), and the unspecified contents after reset (70_reset_and_hazards.md R143, 93_implementation_defined.md U1
and U2) as free values, which no proof can see. -/

namespace Sys2Proof.Config

/-- The open sizes `WM_WORDS` and `BM_BYTES` (R7). They are a constant part of the state, so that every statement about
all states holds for every size (notes/assumptions/1.md). -/
structure Sizes where
  /-- `WM_WORDS`, the number of 32-bit elements of WM. -/
  wmWords : Nat
  /-- `BM_BYTES`, the number of bytes of BM. -/
  bmBytes : Nat
  deriving DecidableEq, Repr

/-- R7: both sizes are natural numbers of at least 1. -/
def Sizes.legal (z : Sizes) : Bool := decide (1 ≤ z.wmWords) && decide (1 ≤ z.bmBytes)

/-- The four address spaces of the core (20_memory.md R35). -/
inductive Space where
  | reg
  | trom
  | wm
  | bm
  deriving DecidableEq, Repr

/-- `REG_BASE`, `TROM_BASE`, `WM_BASE`, `BM_BASE`: where a platform places the spaces in a system address map.
Left open by the spec (R7, R40), hence a free value (notes/assumptions/2.md). -/
opaque spaceBase : Space → Nat

/-- The content of element `index` of WM that nothing has written since reset number `resetCount`: an arbitrary value
fixed at that reset (R143, U2). A free value (notes/assumptions/3.md). -/
opaque unwrittenWord (resetCount index : Nat) : Word

/-- The content of byte `address` of BM that nothing has written since reset number `resetCount` (R143, U2).
A free value (notes/assumptions/3.md). -/
opaque unwrittenByte (resetCount address : Nat) : Byte

/-- The content of table entry `index` before INIT has built the table after reset number `resetCount` (R15, R34, U1).
No command and no host access of a run reads it. A free value (notes/assumptions/4.md). -/
opaque unbuiltEntry (resetCount index : Nat) : Word

end Sys2Proof.Config
end

