-- ==== Sys2Proof/Machine/State.lean ====
section
/-! DEFINITION. The state of the core (10_state.md R13), as plain data, and its value after reset (R34). -/

namespace Sys2Proof.Machine

/-- Why a run stops with a machine fault: never. Every command completes and reports its outcome in STATUS
(60_exceptions.md R126, R128, R129), and an access outside the interface is refused, not faulted (20_memory.md R36 to
R39). A closed type with no constructor, so a fault is impossible; safe. -/
inductive Fault where
  deriving DecidableEq, Repr

/-- Why the model gives an action no meaning. Raised by the host accesses of Machine/HostAccess.lean only, and never by a
command. All are safe: the spec puts these accesses outside the interface (93_implementation_defined.md U1, U4). -/
inductive Refusal where
  /-- An instruction without a meaning yet; raised by an arm of `exec` only. Safe. (No arm raises it.) -/
  | notModelled (mnemonic : String)
  /-- A REG access at an offset above 0x20; raised by a host register access (R36). Safe. -/
  | regOffsetOutside
  /-- A REG access at an offset that is not a multiple of 4; raised by a host register access (R36). Safe. -/
  | regMisaligned
  /-- A REG access of a width other than 32 bits; raised by a host register access (R36). Safe. -/
  | regWidth
  /-- A host read of the table while CFG.RDY = 0; raised by a TROM read (R37, U1). Safe. -/
  | tromNotBuilt
  /-- A TROM access at an index above 1279 (R37). Safe. -/
  | tromIndexOutside
  /-- A host access to WM at an index of at least WM_WORDS (R38). Safe. -/
  | wmIndexOutside
  /-- A host access to BM at an address of at least BM_BYTES (R39). Safe. -/
  | bmAddressOutside
  deriving DecidableEq, Repr

/-- The outcomes of a command, the values of STATUS.ERR (60_exceptions.md R121). The codes 5 to 15 never occur
(U7), so the type does not contain them. -/
inductive ErrCode where
  | ok
  | invalidArgument
  | range
  | illegal
  | state
  deriving DecidableEq, Repr

/-- CFG (10_state.md R17); bits 31:2 read as 0. -/
structure Cfg where
  /-- END, bit 0: the configured endianness. -/
  endian : Endian
  /-- RDY, bit 1: the table has been built and the endianness configured. -/
  rdy : Bool
  deriving DecidableEq, Repr

/-- STATUS (10_state.md R18); bits 31:6 read as 0. -/
structure Status where
  /-- ERR, bits 3:0: the outcome of the most recent command. -/
  err : ErrCode
  /-- RABS, bit 4: the most recent command completed without error and its result is absent. -/
  rabs : Bool
  /-- ESTK, bit 5: some command since reset ended with a nonzero code. -/
  estk : Bool
  deriving DecidableEq, Repr

/-- The contents of a memory: the elements written since reset, by address, in rising order. An unlisted element has not
been written and is unspecified (R34, R143): its value is a free value of Config and no entry can equal it. -/
abbrev Memory (α : Type) := List (Nat × α)

/-- The architectural state (R13) and four fields of the model's own (`sizes`, `resetCount`, `pending`, `replies`). The
ephemeral state of R27 to R29 lives inside one command, which is one step (R11), so it is no field. -/
structure State where
  /-- `T`, the table of 1280 words (R14 to R16). Nothing is listed before INIT has built it. -/
  table : Memory Word
  /-- CFG (R17). -/
  cfg : Cfg
  /-- STATUS (R18). -/
  status : Status
  /-- KEY (R20). -/
  key : Word
  /-- VAL (R21). -/
  val : Word
  /-- SRC (R22). -/
  src : Word
  /-- DST (R23). -/
  dst : Word
  /-- LEN (R24). -/
  len : Word
  /-- RES (R25). -/
  res : Word
  /-- WM, the word memory (R30). -/
  wm : Memory Word
  /-- BM, the byte memory (R31), a list of `Host.Cell`. -/
  bm : Memory Byte
  /-- The model's own: the open parameters WM_WORDS and BM_BYTES (R7), which no step changes. -/
  sizes : Config.Sizes
  /-- The model's own: how many resets there have been, which names the unspecified contents now in force (R143). -/
  resetCount : Nat
  /-- The model's own: the host's actions still to come, in program order (R50). -/
  pending : List HostAction
  /-- The model's own: the values the host's reads returned so far, oldest first. -/
  replies : List Word
  deriving DecidableEq, Repr

/-- The state after reset (R34, R139): registers zero, table and memories unspecified (nothing listed). The sizes are a
DESIGN CHOICE (those of 95_test_vectors.md section 5; notes/assumptions/1.md), and the host has done nothing yet. -/
def State.reset : State where
  table := []
  cfg := ⟨.little, false⟩
  status := ⟨.ok, false, false⟩
  key := 0
  val := 0
  src := 0
  dst := 0
  len := 0
  res := 0
  wm := []
  bm := []
  sizes := ⟨64, 256⟩
  resetCount := 0
  pending := []
  replies := []

end Sys2Proof.Machine
end

