-- ==== Sys2Proof/Machine/Flags.lean ====
section
/-! DEFINITION. The status bits: the layout of STATUS and CFG as the host reads them (10_state.md R17, R18), and what a
successful command writes to STATUS (60_exceptions.md R132). The core has no arithmetic flags (R33). -/

namespace Sys2Proof.Machine

/-- The code of an outcome in STATUS.ERR (R121). -/
def ErrCode.code : ErrCode → BitVec 4
  | .ok => 0
  | .invalidArgument => 1
  | .range => 2
  | .illegal => 3
  | .state => 4

/-- STATUS as a word (R18): ERR in 3:0, RABS in 4, ESTK in 5, zero above. -/
def Status.word (st : Status) : Word :=
  0#26 ++ BitVec.ofBool st.estk ++ BitVec.ofBool st.rabs ++ st.err.code

/-- CFG as a word (R17): END in 0, RDY in 1, zero above. -/
def Cfg.word (c : Cfg) : Word :=
  0#30 ++ BitVec.ofBool c.rdy ++ BitVec.ofBool (c.endian == .big)

/-- Completion without error (R132): ERR is 0, RABS says whether the result is absent, ESTK stays. -/
def State.complete (s : State) (resultAbsent : Bool) : State :=
  { s with status := { s.status with err := .ok, rabs := resultAbsent } }

end Sys2Proof.Machine
end

