-- ==== Sys2Proof/Machine/Ops.lean ====
section
/-! DEFINITION. The named operations over memories and registers, and the error report, which is this core's taking of an
exception (60_exceptions.md R129). -/

namespace Sys2Proof.Machine

/-- The number of entries of the table (00_scope.md R6, 10_state.md R14). -/
def tableLength : Nat := 1280

/-- The entry of a memory at an address, if one has been written since reset. -/
def Memory.entry? {α : Type} : Memory α → Nat → Option α
  | [], _ => none
  | (b, w) :: m, a => if a = b then some w else Memory.entry? m a

/-- Store one element, keeping the addresses rising (`MemWrite`, 00_scope.md R10). -/
def Memory.write {α : Type} : Memory α → Nat → α → Memory α
  | [], a, v => [(a, v)]
  | (b, w) :: m, a, v =>
    if a < b then (a, v) :: (b, w) :: m
    else if a = b then (a, v) :: m
    else (b, w) :: Memory.write m a v

/-- Store a sequence from an address on, in order (the writing loops of R94 and R112). -/
def Memory.writeSeq {α : Type} : Memory α → Nat → List α → Memory α
  | m, _, [] => m
  | m, a, v :: vs => Memory.writeSeq (Memory.write m a v) (a + 1) vs

/-- The canonical form: addresses strictly rising. -/
def Memory.wf {α : Type} : Memory α → Bool
  | [] => true
  | [_] => true
  | (a, _) :: (b, w) :: m => decide (a < b) && Memory.wf ((b, w) :: m)

/-- Every listed address is below the size of the memory. -/
def Memory.within {α : Type} (m : Memory α) (size : Nat) : Bool := m.all fun e => decide (e.1 < size)

/-- `T[i]` (R10, R14). An unbuilt entry is a free value (U1). -/
def State.tableAt (s : State) (i : Nat) : Word :=
  (Memory.entry? s.table i).getD (Config.unbuiltEntry s.resetCount i)

/-- `MemRead(WM, i, 4)` (R10). An element not written since reset is a free value (R143). -/
def State.wmAt (s : State) (i : Nat) : Word :=
  (Memory.entry? s.wm i).getD (Config.unwrittenWord s.resetCount i)

/-- `MemRead(BM, a, 1)` (R10). An element not written since reset is a free value (R143). -/
def State.bmAt (s : State) (a : Nat) : Byte :=
  (Memory.entry? s.bm a).getD (Config.unwrittenByte s.resetCount a)

/-- `[ MemRead(WM, start + i, 4) for i in 0..count ]` (R94). -/
def State.readWords (s : State) (start count : Nat) : List Word :=
  (List.range count).map fun i => s.wmAt (start + i)

/-- `[ MemRead(BM, start + j, 1) for j in 0..count ]` (R81, R112). -/
def State.readBytes (s : State) (start count : Nat) : List Byte :=
  (List.range count).map fun j => s.bmAt (start + j)

/-- `for i: MemWrite(WM, start + i, 4, ws[i])` (R94). -/
def State.writeWords (s : State) (start : Nat) (ws : List Word) : State :=
  { s with wm := Memory.writeSeq s.wm start ws }

/-- `for j: MemWrite(BM, start + j, 1, bs[j])` (R112). -/
def State.writeBytes (s : State) (start : Nat) (bs : List Byte) : State :=
  { s with bm := Memory.writeSeq s.bm start bs }

/-- `RES <- v` (R25). -/
def State.writeRes (s : State) (v : Word) : State := { s with res := v }

/-- `T <- t; CFG.END <- endian; CFG.RDY <- 1` (R74). -/
def State.install (s : State) (t : Memory Word) (endian : Endian) : State :=
  { s with table := t, cfg := ⟨endian, true⟩ }

/-- Taking an exception: the error report of R129. ERR receives the code, RABS is cleared, ESTK is set, and nothing else
changes. There is no return from it: the next command simply runs (R130). -/
def State.raiseError (s : State) (e : ErrCode) : State :=
  { s with status := ⟨e, false, true⟩ }

/-- A command word that matches no row raises ILLEGAL, whatever its defect (R62, R124). -/
def illegalCommand (s : State) : Host.Outcome State Fault Refusal := .next (s.raiseError .illegal)

/-- The one reset of the core (R139): every piece of state at its value of R34, with new unspecified contents (R143). The
sizes are parameters, not state, and the host's own program and transcript are not the core's, so they stay. -/
def State.applyReset (s : State) : State :=
  { State.reset with
    sizes := s.sizes
    resetCount := s.resetCount + 1
    pending := s.pending
    replies := s.replies }

/-- The host's actions still to come (R50). -/
def State.withPending (s : State) (actions : List HostAction) : State := { s with pending := actions }

/-- Give a host read its datum. A read changes nothing in the core (R49). -/
def State.reply (s : State) (v : Word) : State := { s with replies := s.replies ++ [v] }

end Sys2Proof.Machine
end

