-- ==== Sys2Proof/Machine/Operands.lean ====
section
/-! DEFINITION. Operands (30_encoding.md R60, R61): the hash kind, the input sequences that SRC and LEN describe, and the range
checks on them (20_memory.md R48). -/

namespace Sys2Proof.Machine

/-- The four hash kinds (30_encoding.md R55): TableOffset = 0, NameA = 1, NameB = 2, FileKey = 3. -/
inductive HashKind where
  | tableOffset
  | nameA
  | nameB
  | fileKey
  deriving DecidableEq, Repr

/-- The value of a kind (R55). -/
def HashKind.value : HashKind → Nat
  | .tableOffset => 0
  | .nameA => 1
  | .nameB => 2
  | .fileKey => 3

/-- The kind a raw KIND field selects; none outside 0..3 (R55, R82). -/
def hashKind? : Nat → Option HashKind
  | 0 => some .tableOffset
  | 1 => some .nameA
  | 2 => some .nameB
  | 3 => some .fileKey
  | _ => none

/-- `region_base = kind_value * 256` (R61). -/
def HashKind.regionBase (k : HashKind) : Nat := k.value * 256

/-- The range check `a + count <= size`, in unbounded natural numbers (R48). -/
def inRange (a count size : Nat) : Bool := decide (a + count ≤ size)

/-- SRC and LEN describe a range of WM (R48). -/
def State.wmSrcFits (s : State) : Bool := inRange s.src.toNat s.len.toNat s.sizes.wmWords

/-- DST and LEN describe a range of WM (R48). -/
def State.wmDstFits (s : State) : Bool := inRange s.dst.toNat s.len.toNat s.sizes.wmWords

/-- SRC and LEN describe a range of BM (R48). -/
def State.bmSrcFits (s : State) : Bool := inRange s.src.toNat s.len.toNat s.sizes.bmBytes

/-- DST and LEN describe a range of BM (R48). -/
def State.bmDstFits (s : State) : Bool := inRange s.dst.toNat s.len.toNat s.sizes.bmBytes

/-- The input words of ENCW and DECW: WM[SRC, SRC + LEN) (R60). -/
def State.inputWords (s : State) : List Word := s.readWords s.src.toNat s.len.toNat

/-- The input bytes of HASH and the byte commands: BM[SRC, SRC + LEN) (R60). -/
def State.inputBytes (s : State) : List Byte := s.readBytes s.src.toNat s.len.toNat

end Sys2Proof.Machine
end

