-- ==== Sys2Proof/Machine/WordCipher.lean ====
section
/-! DEFINITION. WCIPH, the word stream cipher, and its commands ENCW, DECW, ENC1 and DEC1 (42_word_cipher.md). A function of
this file that reads the table takes it as its argument `T`. -/

namespace Sys2Proof.Machine

/-- The two directions of the cipher (R89). -/
inductive Direction where
  | encrypt
  | decrypt
  deriving DecidableEq, Repr

/-- CipherState, the ephemeral pair of one call (10_state.md R27). -/
structure CipherState where
  key : Word
  seed : Word
  deriving DecidableEq, Repr

/-- `INITIAL_SEED` (00_scope.md R6). -/
def initialSeed : Word := 0xEEEEEEEE

/-- `lookup_index(key) = 0x400 + (key & 0xFF)` (R87). -/
def lookupIndex (key : Word) : Nat := 0x400 + (key &&& 0xFF).toNat

/-- The key schedule (R88): complement, shift left by 21, add 0x11111111, or with the key shifted right by 11. -/
def nextKey (key : Word) : Word := ((~~~key <<< 21) + (0x11111111 : Word)) ||| (key >>> 11)

/-- The value that drives the seed: always the plaintext (R92). -/
def plainOf : Direction → (input output : Word) → Word
  | .encrypt, input, _ => input
  | .decrypt, _, output => output

/-- One step of the cipher (R89). -/
def cipherStep (T : Nat → Word) (dir : Direction) (c : CipherState) (w : Word) : Word × CipherState :=
  let seed1 := c.seed + T (lookupIndex c.key)
  let base := c.key + seed1
  let out := w ^^^ base
  (out, ⟨nextKey c.key, plainOf dir w out + seed1 + (seed1 <<< 5) + 3⟩)

/-- The loop of R90 and R91 from a given CipherState. -/
def cipherWords (T : Nat → Word) (dir : Direction) : CipherState → List Word → List Word
  | _, [] => []
  | c, w :: ws => (cipherStep T dir c w).1 :: cipherWords T dir (cipherStep T dir c w).2 ws

/-- `encrypt_words(words, key)` (R90) and `decrypt_words(words, key)` (R91). -/
def cryptWords (T : Nat → Word) (dir : Direction) (words : List Word) (key : Word) : List Word :=
  cipherWords T dir ⟨key, initialSeed⟩ words

/-- The single-word form: the sequence form on a length-1 sequence (R96, R97). -/
def cryptWord (T : Nat → Word) (dir : Direction) (value key : Word) : Word :=
  (cryptWords T dir [value] key).headD 0

/-- What ENCW and DECW share (R94, R95): the whole input is read before anything is written (20_memory.md R47). -/
def wordCommand (dir : Direction) (absent : Bool) (s : State) : Host.Outcome State Fault Refusal :=
  if !s.cfg.rdy then .next (s.raiseError .state)
  else if absent then .next (s.complete true)
  else if !(s.wmSrcFits && s.wmDstFits) then .next (s.raiseError .range)
  else .next ((s.writeWords s.dst.toNat (cryptWords s.tableAt dir s.inputWords s.key)).complete false)

/-- What ENC1 and DEC1 share (R96, R97). -/
def singleCommand (dir : Direction) (s : State) : Host.Outcome State Fault Refusal :=
  if !s.cfg.rdy then .next (s.raiseError .state)
  else .next ((s.writeRes (cryptWord s.tableAt dir s.val s.key)).complete false)

/-- ENC1 (R96). -/
def execEnc1 (s : State) : Host.Outcome State Fault Refusal := singleCommand .encrypt s

/-- DEC1 (R97). -/
def execDec1 (s : State) : Host.Outcome State Fault Refusal := singleCommand .decrypt s

/-- ENCW (R94). -/
def execEncw (absent : Bool) (s : State) : Host.Outcome State Fault Refusal := wordCommand .encrypt absent s

/-- DECW (R95). -/
def execDecw (absent : Bool) (s : State) : Host.Outcome State Fault Refusal := wordCommand .decrypt absent s

end Sys2Proof.Machine
end

