-- ==== Sys2Proof/Machine/ByteCodec.lean ====
section
/-! DEFINITION. BCODEC, the byte-to-word codec, and its commands ENCB, DECB, ENCBUF and DECBUF (43_byte_codec.md). A function
of this file that reads the table takes it as its argument `T`. -/

namespace Sys2Proof.Machine

/-- `decode(b0, b1, b2, b3, END)` (20_memory.md R42). -/
def bytesToWord : Endian → Byte → Byte → Byte → Byte → Word
  | .little, b0, b1, b2, b3 =>
    b0.setWidth 32 ||| (b1.setWidth 32 <<< 8) ||| (b2.setWidth 32 <<< 16) ||| (b3.setWidth 32 <<< 24)
  | .big, b0, b1, b2, b3 =>
    (b0.setWidth 32 <<< 24) ||| (b1.setWidth 32 <<< 16) ||| (b2.setWidth 32 <<< 8) ||| b3.setWidth 32

/-- `encode(w)`, always little-endian (20_memory.md R43). -/
def wordToBytes (w : Word) : List Byte :=
  [w.extractLsb' 0 8, w.extractLsb' 8 8, w.extractLsb' 16 8, w.extractLsb' 24 8]

/-- The whole-word region: the first `n - n mod 4` bytes (R103). -/
def wholeWords (src : List Byte) : List Byte := src.take (src.length - src.length % 4)

/-- The trailing remainder: the last `n mod 4` bytes (R103). -/
def remainder (src : List Byte) : List Byte := src.drop (src.length - src.length % 4)

/-- Group every 4 bytes from the start and decode each group with the configured endianness (R105). -/
def groupWords (endian : Endian) : List Byte → List Word
  | b0 :: b1 :: b2 :: b3 :: rest => bytesToWord endian b0 b1 b2 b3 :: groupWords endian rest
  | _ => []

/-- `encrypt_bytes(src, key, END)` (R109) and `decrypt_bytes(src, key, END)` (R110): the six steps of R103 to R108. The tail
is reversed and not enciphered (R104); the words come out little-endian whatever END is (R107). -/
def cryptBytes (T : Nat → Word) (dir : Direction) (src : List Byte) (key : Word) (endian : Endian) : List Byte :=
  let tail := (remainder src).reverse
  let cipher := cryptWords T dir (groupWords endian (wholeWords src)) key
  cipher.flatMap wordToBytes ++ tail

/-- The output bytes of a byte command: its input under KEY and the configured endianness (R112). -/
def State.outputBytes (s : State) (dir : Direction) : List Byte :=
  cryptBytes s.tableAt dir s.inputBytes s.key s.cfg.endian

/-- What ENCB and DECB share (R112, R113): the whole input is read before anything is written (20_memory.md R47). -/
def byteCommand (dir : Direction) (absent : Bool) (s : State) : Host.Outcome State Fault Refusal :=
  if !s.cfg.rdy then .next (s.raiseError .state)
  else if absent then .next (s.complete true)
  else if !(s.bmSrcFits && s.bmDstFits) then .next (s.raiseError .range)
  else .next ((s.writeBytes s.dst.toNat (s.outputBytes dir)).complete false)

/-- What ENCBUF and DECBUF share (R114, R115): the byte form in place; DST is not read. -/
def bufferCommand (dir : Direction) (absent : Bool) (s : State) : Host.Outcome State Fault Refusal :=
  if !s.cfg.rdy then .next (s.raiseError .state)
  else if absent then .next (s.complete true)
  else if !s.bmSrcFits then .next (s.raiseError .range)
  else .next ((s.writeBytes s.src.toNat (s.outputBytes dir)).complete false)

/-- ENCB (R112). -/
def execEncb (absent : Bool) (s : State) : Host.Outcome State Fault Refusal := byteCommand .encrypt absent s

/-- DECB (R113). -/
def execDecb (absent : Bool) (s : State) : Host.Outcome State Fault Refusal := byteCommand .decrypt absent s

/-- ENCBUF (R114). -/
def execEncbuf (absent : Bool) (s : State) : Host.Outcome State Fault Refusal := bufferCommand .encrypt absent s

/-- DECBUF (R115). -/
def execDecbuf (absent : Bool) (s : State) : Host.Outcome State Fault Refusal := bufferCommand .decrypt absent s

end Sys2Proof.Machine
end

