-- ==== Sys2Proof/Machine/Hash.lean ====
section
/-! DEFINITION. HASH, the hash engine and its command (41_hash.md). A function of this file that reads the table takes it
as its argument `T`. -/

namespace Sys2Proof.Machine

/-- `up(b)`: fold 'a'..'z' (0x61..0x7A) to upper case, leave every other byte (R77). -/
def foldUpper (b : Byte) : Byte := if 0x61 ≤ b.toNat ∧ b.toNat ≤ 0x7A then b - 0x20 else b

/-- The hash accumulators (10_state.md R28). -/
structure HashAcc where
  seed1 : Word
  seed2 : Word
  deriving DecidableEq, Repr

/-- The initial accumulators (R78). -/
def hashStart : HashAcc := ⟨0x7FED7FED, 0xEEEEEEEE⟩

/-- The step for one byte of the string (R79): the new `seed1` feeds the new `seed2`, whose other terms are old. -/
def hashStep (T : Nat → Word) (kind : HashKind) (acc : HashAcc) (b : Byte) : HashAcc :=
  let ch := foldUpper b
  let seed1 := T (kind.regionBase + ch.toNat) ^^^ (acc.seed1 + acc.seed2)
  let seed2 := ch.setWidth 32 + seed1 + acc.seed2 + (acc.seed2 <<< 5) + 3
  ⟨seed1, seed2⟩

/-- `hash(s, kind)`: the final `seed1` (R80). -/
def hashBytes (T : Nat → Word) (kind : HashKind) (string : List Byte) : Word :=
  (string.foldl (hashStep T kind) hashStart).seed1

/-- HASH (R81), its checks in the order of R127. -/
def execHash (kind : Nat) (absent : Bool) (s : State) : Host.Outcome State Fault Refusal :=
  if !s.cfg.rdy then .next (s.raiseError .state)
  else match hashKind? kind with
    | none => .next (s.raiseError .invalidArgument)
    | some k =>
      if absent then .next (s.raiseError .invalidArgument)
      else if !s.bmSrcFits then .next (s.raiseError .range)
      else .next ((s.writeRes (hashBytes s.tableAt k s.inputBytes)).complete false)

end Sys2Proof.Machine
end

