-- ==== Sys2Proof/Machine/TableRom.lean ====
section
/-! DEFINITION. TROM, the table generator, and its command INIT (40_table_generator.md). -/

namespace Sys2Proof.Machine

/-- The generator's start value (R69). -/
def lcgStart : Nat := 0x00100001

/-- One step of the linear congruential generator, in natural numbers (R69, R73). -/
def lcgNext (lcg : Nat) : Nat := (lcg * 125 + 3) % 0x2AAAAB

/-- Draw number `n`, counted from 1: the state AFTER `n` steps (R70, 92_eei_decisions.md D17). -/
def drawn : Nat → Nat
  | 0 => lcgStart
  | n + 1 => lcgNext (drawn n)

/-- `shl32(first_draw & 0xFFFF, 16) | (second_draw & 0xFFFF)` (R71, R76). -/
def tableEntry (first second : Nat) : Word :=
  (BitVec.ofNat 32 (first &&& 0xFFFF) <<< 16) ||| BitVec.ofNat 32 (second &&& 0xFFFF)

/-- The indices in the order they are written: `index1` outer, `i` inner, `index2 = index1 + i*256` (R72). -/
def writeOrder : List Nat :=
  (List.range 256).flatMap fun index1 => (List.range 5).map fun i => index1 + i * 256

/-- Two draws for each index, in the order given (R71). -/
def fillInOrder : Nat → List Nat → Memory Word
  | _, [] => []
  | lcg, index2 :: rest =>
    let first := lcgNext lcg
    let second := lcgNext first
    (index2, tableEntry first second) :: fillInOrder second rest

/-- `build()` (R71): what R72's writes leave in the table. Within one region of 256 entries (R16) they come in rising
order, so taking the regions in turn lists the entries by index. -/
def buildTable : Memory Word :=
  (List.range 5).flatMap fun region =>
    (fillInOrder lcgStart writeOrder).filter fun e => e.1 / 256 == region

/-- INIT (R74). -/
def execInit (endian : Endian) (s : State) : Host.Outcome State Fault Refusal :=
  if s.cfg.rdy then .next (s.raiseError .state)
  else .next ((s.install buildTable endian).complete false)

end Sys2Proof.Machine
end

