-- ==== Sys2Proof/Machine/Dispatch.lean ====
section
/-! DEFINITION. One arm per command (30_encoding.md R59, R65): each calls its meaning. -/

namespace Sys2Proof.Machine

def exec (i : Instr) (s : State) : Host.Outcome State Fault Refusal :=
  match i with
  | .init endian => Sys2Proof.Machine.execInit endian s
  | .hash kind absent => Sys2Proof.Machine.execHash kind absent s
  | .enc1 => Sys2Proof.Machine.execEnc1 s
  | .dec1 => Sys2Proof.Machine.execDec1 s
  | .encw absent => Sys2Proof.Machine.execEncw absent s
  | .decw absent => Sys2Proof.Machine.execDecw absent s
  | .encb absent => Sys2Proof.Machine.execEncb absent s
  | .decb absent => Sys2Proof.Machine.execDecb absent s
  | .encbuf absent => Sys2Proof.Machine.execEncbuf absent s
  | .decbuf absent => Sys2Proof.Machine.execDecbuf absent s

end Sys2Proof.Machine
end

