-- ==== Sys2Proof/Machine/HostAccess.lean ====
section
/-! DEFINITION. The host's accesses to the four spaces (20_memory.md R35 to R39), other than a write of CMD, and how a write
of CMD carries a command word (10_state.md R19). -/

namespace Sys2Proof.Machine

/-- The nine registers of the REG space (R36). -/
inductive Reg where
  | cmd
  | status
  | cfg
  | key
  | val
  | src
  | dst
  | len
  | res
  deriving DecidableEq, Repr

/-- The byte offset of a register (R36). -/
def Reg.offset : Reg → Nat
  | .cmd => 0x00
  | .status => 0x04
  | .cfg => 0x08
  | .key => 0x0C
  | .val => 0x10
  | .src => 0x14
  | .dst => 0x18
  | .len => 0x1C
  | .res => 0x20

/-- The register whose number, its offset divided by 4, is given (R36). -/
def regNumbered? : Nat → Option Reg
  | 0 => some .cmd
  | 1 => some .status
  | 2 => some .cfg
  | 3 => some .key
  | 4 => some .val
  | 5 => some .src
  | 6 => some .dst
  | 7 => some .len
  | 8 => some .res
  | _ => none

/-- The register an access names, or the reason it is outside the interface (R36). -/
def regAccess (offset width : Nat) : Except Refusal Reg :=
  if width ≠ 32 then .error .regWidth
  else if offset % 4 ≠ 0 then .error .regMisaligned
  else match regNumbered? (offset / 4) with
    | some r => .ok r
    | none => .error .regOffsetOutside

/-- A host read of a register (R36): CMD has no storage and reads 0 (R19). -/
def State.readReg (s : State) : Reg → Word
  | .cmd => 0
  | .status => s.status.word
  | .cfg => s.cfg.word
  | .key => s.key
  | .val => s.val
  | .src => s.src
  | .dst => s.dst
  | .len => s.len
  | .res => s.res

/-- A host write of a register (R36): STATUS, CFG and RES ignore it, and CMD stores nothing (R19). -/
def State.writeReg (s : State) : Reg → Word → State
  | .cmd, _ => s
  | .status, _ => s
  | .cfg, _ => s
  | .key, v => { s with key := v }
  | .val, v => { s with val := v }
  | .src, v => { s with src := v }
  | .dst, v => { s with dst := v }
  | .len, v => { s with len := v }
  | .res, _ => s

/-- The command word an action carries: a 32-bit write at the offset of CMD (R19). This is the core's only way of
receiving an instruction (R32, R52). -/
def commandWord? : HostAction → Option Word
  | .regWrite offset width value => if offset = Reg.cmd.offset ∧ width = 32 then some value else none
  | _ => none

/-- The effect of a host action that carries no command (R36 to R39, R139). -/
def hostAccess (a : HostAction) (s : State) : Host.Outcome State Fault Refusal :=
  match a with
  | .regRead offset width =>
    match regAccess offset width with
    | .ok r => .next (s.reply (s.readReg r))
    | .error e => .refused e
  | .regWrite offset width value =>
    match regAccess offset width with
    | .ok r => .next (s.writeReg r value)
    | .error e => .refused e
  | .tromRead index =>
    if tableLength ≤ index then .refused .tromIndexOutside
    else if !s.cfg.rdy then .refused .tromNotBuilt
    else .next (s.reply (s.tableAt index))
  | .tromWrite index _ =>
    if tableLength ≤ index then .refused .tromIndexOutside else .next s
  | .wmRead index =>
    if s.sizes.wmWords ≤ index then .refused .wmIndexOutside else .next (s.reply (s.wmAt index))
  | .wmWrite index value =>
    if s.sizes.wmWords ≤ index then .refused .wmIndexOutside else .next (s.writeWords index [value])
  | .bmRead address =>
    if s.sizes.bmBytes ≤ address then .refused .bmAddressOutside
    else .next (s.reply ((s.bmAt address).setWidth 32))
  | .bmWrite address value =>
    if s.sizes.bmBytes ≤ address then .refused .bmAddressOutside else .next (s.writeBytes address [value])
  | .reset => .next s.applyReset

/-- Where a platform places an offset of a space in its system address map (R40). No rule depends on it. -/
def systemAddress (space : Config.Space) (offset : Nat) : Nat := Config.spaceBase space + offset

end Sys2Proof.Machine
end

