-- ==== Sys2Proof/Machine/Command.lean ====
section
/-! DEFINITION. What one action of the host does: a write of CMD carries a command word (30_encoding.md R65), every other
action is an access (20_memory.md R49). -/

namespace Sys2Proof.Machine

/-- A host write of `c` to CMD (R65): decode, then execute, or raise ILLEGAL. -/
def command (c : Word) (s : State) : Host.Outcome State Fault Refusal :=
  match decode c with
  | .ok i => exec i s
  | .error _ => illegalCommand s

/-- One host action: a command if it writes CMD, otherwise an access (R49). -/
def perform (a : HostAction) (s : State) : Host.Outcome State Fault Refusal :=
  match commandWord? a with
  | some c => command c s
  | none => hostAccess a s

/-- The host action that issues the opcode-table word `w` of `nbits` bits: a 32-bit write of CMD (R19). -/
def fetchAction (nbits w : Nat) : HostAction :=
  .regWrite Reg.cmd.offset 32 (BitVec.ofNat 32 (w % 2 ^ nbits))

end Sys2Proof.Machine
end

