-- ==== Sys2Proof/Machine/Step.lean ====
section
/-! DEFINITION. One step of the machine: the next action of the host, a command being one atomic transition at its CMD write
(00_scope.md R11, 30_encoding.md R65). -/

namespace Sys2Proof.Machine

/-- The host's actions happen one at a time, in program order (20_memory.md R50). With none pending the engine is idle and
keeps its state (60_exceptions.md R135, 70_reset_and_hazards.md R140). -/
def step (s : State) : Host.Outcome State Fault Refusal :=
  match s.pending with
  | [] => .next s
  | a :: rest => perform a (s.withPending rest)

/-- The host is about to write the given opcode-table word to CMD (R19); everything else stays, the host's later actions
among it. -/
def State.withFetchWord (s : State) (nbits w : Nat) : State :=
  s.withPending (fetchAction nbits w :: s.pending)

end Sys2Proof.Machine
end

