-- ==== Sys2Proof/Safety.lean ====
section
/-! DEFINITION. The terms that statements about runs use: what holds of the core between the host's actions, and which
actions the interface gives a meaning. -/

namespace Sys2Proof.Machine

/-- What holds of the core at reset and after every action of the host:
the sizes are legal (R7); WM and BM are in canonical form inside their sizes (R30, R31); the table is `build()` once the
core is configured, and before that nothing is built and the endianness is little (R15, R17, R34); STATUS reports an error
only with ESTK set and RABS clear, and an absent result only of a configured core (R18, R129, R131, R138). -/
def State.Inv (s : State) : Prop :=
  s.sizes.legal = true ∧
  (Memory.wf s.wm = true ∧ Memory.within s.wm s.sizes.wmWords = true) ∧
  (Memory.wf s.bm = true ∧ Memory.within s.bm s.sizes.bmBytes = true) ∧
  (s.cfg.rdy = true → s.table = buildTable) ∧
  (s.cfg.rdy = false → s.table = [] ∧ s.cfg.endian = .little) ∧
  (s.status.err ≠ .ok → s.status.estk = true ∧ s.status.rabs = false) ∧
  (s.status.rabs = true → s.cfg.rdy = true)

/-- The bytes of each 4-byte group in reverse order, and nothing of a last incomplete group (R117). -/
def reverseGroups : List Byte → List Byte
  | b0 :: b1 :: b2 :: b3 :: rest => b3 :: b2 :: b1 :: b0 :: reverseGroups rest
  | _ => []

end Sys2Proof.Machine

namespace Sys2Proof

open Sys2Proof.Machine in
/-- The host actions to which R36 to R39 and R139 give a meaning. A write of CMD is one of them, whatever the word. -/
def HostAction.inInterface (a : HostAction) (s : State) : Bool :=
  match a with
  | .regRead offset width => decide (width = 32 ∧ offset % 4 = 0 ∧ offset ≤ 0x20)
  | .regWrite offset width _ => decide (width = 32 ∧ offset % 4 = 0 ∧ offset ≤ 0x20)
  | .tromRead index => decide (index < 1280) && s.cfg.rdy
  | .tromWrite index _ => decide (index < 1280)
  | .wmRead index => decide (index < s.sizes.wmWords)
  | .wmWrite index _ => decide (index < s.sizes.wmWords)
  | .bmRead address => decide (address < s.sizes.bmBytes)
  | .bmWrite address _ => decide (address < s.sizes.bmBytes)
  | .reset => true

/-- The host action is a read of one of the four spaces. -/
def HostAction.isRead : HostAction → Bool
  | .regRead _ _ => true
  | .tromRead _ => true
  | .wmRead _ => true
  | .bmRead _ => true
  | .regWrite _ _ _ => false
  | .tromWrite _ _ => false
  | .wmWrite _ _ => false
  | .bmWrite _ _ => false
  | .reset => false

end Sys2Proof
end

