-- ==== Sys2Proof/Certificates/Slice0/Obligations.lean ====
section
/-! DEFINITION. The statements about the core, for the provers. Each docstring names the rule of the spec it states or rests
on. A state in a statement is any state, not only one a run reaches. -/

open Sys2Proof Sys2Proof.Machine

/-! ### Encoding (30_encoding.md) -/

/-- R53, R59, R65: decoding the word of a well-formed command gives the command back. -/
def Obligations.DecodeOfEncodeIsTheCommand : Prop :=
  ∀ i : Instr, i.wellFormed = true → decode (encode i) = .ok i

/-- R53, R58, R59: a word that decodes is the one word of a well-formed command, so no bit of it is ignored. -/
def Obligations.EncodeOfDecodeIsTheWord : Prop :=
  ∀ (c : Word) (i : Instr), decode c = .ok i → i.wellFormed = true ∧ encode i = c

/-- R59: the rows of the opcode map are pairwise disjoint. -/
def Obligations.OpcodeRowsAreDisjoint : Prop :=
  ∀ (c : Word) (r q : OpcodeRow), r ∈ opcodeRows → q ∈ opcodeRows →
    r.selects c = true → q.selects c = true → r = q

/-- R62, R124: a word is illegal exactly when OP is unknown, a reserved bit is 1 or an unused field is nonzero, the
all-zero and the all-ones word among them; written to CMD it raises ILLEGAL, code 3, whatever else the state holds, and
nothing but STATUS changes. -/
def Obligations.IllegalWordsRaiseIllegal : Prop :=
  (∀ c : Word, (∃ e, decode c = .error e) ↔
    (opField c = 0x0 ∨ opField c = 0x3 ∨ opField c = 0xC ∨ opField c = 0xD ∨ opField c = 0xE ∨ opField c = 0xF ∨
      c.extractLsb' 4 4 ≠ 0 ∨ c.extractLsb' 18 14 ≠ 0 ∨
      (c.extractLsb' 8 8 ≠ 0 ∧ opField c ≠ 0x2) ∨
      (c.getLsbD 16 = true ∧ opField c ≠ 0x1) ∨
      (c.getLsbD 17 = true ∧ (opField c = 0x1 ∨ opField c = 0x4 ∨ opField c = 0x5)))) ∧
  (∃ e, decode 0x00000000 = .error e) ∧ (∃ e, decode 0xFFFFFFFF = .error e) ∧
  (∀ (s : State) (c : Word) (rest : List HostAction) (e : Illegal),
    s.pending = .regWrite 0x00 32 c :: rest → decode c = .error e →
    step s = .next { s with pending := rest, status := ⟨.illegal, false, true⟩ }) ∧
  ErrCode.illegal.code = 3

/-- R59 and 95_test_vectors.md section 2.5: words written out from the encoding decode to the commands they stand for. -/
def Obligations.SampleWordsDecode : Prop :=
  decode 0x00010001 = .ok (.init .big) ∧ decode 0x00020302 = .ok (.hash 3 true) ∧
  decode 0x00000004 = .ok .enc1 ∧ decode 0x00000005 = .ok .dec1 ∧ decode 0x00020006 = .ok (.encw true) ∧
  decode 0x00000007 = .ok (.decw false) ∧ decode 0x00000008 = .ok (.encb false) ∧
  decode 0x00020009 = .ok (.decb true) ∧ decode 0x0000000A = .ok (.encbuf false) ∧
  decode 0x0002000B = .ok (.decbuf true)

/-! ### A step (00_scope.md R11, 30_encoding.md R65) -/

/-- R11, R19, R65: a host write of a legal word to CMD executes exactly its command, the host's later actions still
pending. That the host's actions stand in a list of the state is the model's choice (notes/assumptions/6.md). -/
def Obligations.StepRunsTheDecodedCommand : Prop :=
  ∀ (s : State) (c : Word) (rest : List HostAction) (i : Instr),
    s.pending = .regWrite 0x00 32 c :: rest → decode c = .ok i →
    i.wellFormed = true ∧ step s = exec i { s with pending := rest }

/-- The model's way of placing an instruction (its choice, notes/assumptions/7.md): the next step after `withFetchWord` runs
the instruction of the word. -/
def Obligations.StepAfterWithFetchWord : Prop :=
  ∀ (s : State) (w : Nat) (i : Instr), decodeTableWord 32 w = some i → step (s.withFetchWord 32 w) = exec i s

/-- R129 ("The CMD write itself completes normally on the bus"), R126, R149: a write of ANY word to CMD answers a next
state, with the host's later actions still pending; it neither faults nor is refused. -/
def Obligations.EveryCmdWriteCompletes : Prop :=
  ∀ (s : State) (c : Word) (rest : List HostAction), s.pending = .regWrite 0x00 32 c :: rest →
    ∃ t, step s = .next t ∧ t.pending = rest

/-- R135, R140: with no host action the engine is idle and keeps its state. That an idle step answers the same state is the
model's choice (notes/assumptions/10.md). -/
def Obligations.IdleEngineKeepsItsState : Prop :=
  ∀ s : State, s.pending = [] → step s = .next s

/-- R36 to R39, U4: a step is refused exactly when the host's action is outside the interface. That it never faults is the
model's reading of R126 and R129 (DEDUCED, notes/assumptions/5.md): the spec has no machine fault, so the type of faults is
empty and the clause holds by that type alone. -/
def Obligations.StepIsRefusedExactlyOutsideTheInterface : Prop :=
  (∀ (s : State) (f : Fault), step s ≠ .fault f) ∧
  (∀ s : State, (∃ r, step s = .refused r) ↔
    ∃ a rest, s.pending = a :: rest ∧ HostAction.inInterface a { s with pending := rest } = false)

/-! ### Errors (60_exceptions.md) -/

/-- R121, R127: the outcome of every CMD write, by the first failing check in the order ILLEGAL, STATE, INVALID_ARGUMENT,
RANGE; and every command answers a next state. -/
def Obligations.CommandOutcomeFollowsThePriority : Prop :=
  (∀ (s : State) (c : Word) (rest : List HostAction) (e : Illegal),
    s.pending = .regWrite 0x00 32 c :: rest → decode c = .error e →
    ∃ t, step s = .next t ∧ t.status.err = .illegal) ∧
  ∀ (i : Instr) (s : State), ∃ t, exec i s = .next t ∧
    t.status.err =
      match i with
      | .init _ => if s.cfg.rdy = true then .state else .ok
      | .hash kind absent =>
        if s.cfg.rdy = false then .state
        else if 3 < kind ∨ absent = true then .invalidArgument
        else if s.sizes.bmBytes < s.src.toNat + s.len.toNat then .range else .ok
      | .enc1 | .dec1 => if s.cfg.rdy = false then .state else .ok
      | .encw absent | .decw absent =>
        if s.cfg.rdy = false then .state
        else if absent = true then .ok
        else if s.sizes.wmWords < s.src.toNat + s.len.toNat ∨ s.sizes.wmWords < s.dst.toNat + s.len.toNat then .range
        else .ok
      | .encb absent | .decb absent =>
        if s.cfg.rdy = false then .state
        else if absent = true then .ok
        else if s.sizes.bmBytes < s.src.toNat + s.len.toNat ∨ s.sizes.bmBytes < s.dst.toNat + s.len.toNat then .range
        else .ok
      | .encbuf absent | .decbuf absent =>
        if s.cfg.rdy = false then .state
        else if absent = true then .ok
        else if s.sizes.bmBytes < s.src.toNat + s.len.toNat then .range
        else .ok

/-- R129: a command that ends in an error reports its code with RABS clear and ESTK set, and changes nothing else; so does
a step that writes any word to CMD, an illegal one among them. The CMD write itself completes: the step answers a next
state. -/
def Obligations.ErrorsChangeOnlyStatus : Prop :=
  (∀ (i : Instr) (s t : State), exec i s = .next t → t.status.err ≠ .ok →
    t = { s with status := ⟨t.status.err, false, true⟩ }) ∧
  (∀ (s t : State) (c : Word) (rest : List HostAction), s.pending = .regWrite 0x00 32 c :: rest →
    step s = .next t → t.status.err ≠ .ok →
    t = { s with pending := rest, status := ⟨t.status.err, false, true⟩ }) ∧
  (∀ (s : State) (c : Word) (rest : List HostAction), s.pending = .regWrite 0x00 32 c :: rest →
    ∃ t, step s = .next t)

/-- R132: a command that completes without error (ERR = 0) reports in RABS whether its result is absent, which is whether its ABS
bit is 1, and leaves ESTK. -/
def Obligations.SuccessReportsAbsenceAndLeavesEstk : Prop :=
  ErrCode.ok.code = 0 ∧
  ∀ (i : Instr) (s t : State), exec i s = .next t → t.status.err = .ok →
    t.status.estk = s.status.estk ∧
    t.status.rabs =
      match i with
      | .encw absent | .decw absent | .encb absent | .decb absent | .encbuf absent | .decbuf absent => absent
      | .init _ | .hash _ _ | .enc1 | .dec1 => false

/-- R131: a step sets ESTK when it is a command that ends with a nonzero code, clears it only by reset, and otherwise
leaves it. -/
def Obligations.EstkIsStickyUntilReset : Prop :=
  ∀ (s t : State) (a : HostAction) (rest : List HostAction), s.pending = a :: rest → step s = .next t →
    (a = .reset → t.status.estk = false) ∧
    (a ≠ .reset → (t.status.estk = true ↔
      s.status.estk = true ∨ ((∃ c, a = .regWrite 0x00 32 c) ∧ t.status.err ≠ .ok)))

/-- R125: (a) INIT on a configured core and (b) any other command on a core that is not configured raise STATE, code 4,
and change nothing but STATUS. -/
def Obligations.StateErrorBeforeAndAfterInit : Prop :=
  ErrCode.state.code = 4 ∧
  (∀ (s : State) (e : Endian), s.cfg.rdy = true →
    exec (.init e) s = .next { s with status := ⟨.state, false, true⟩ }) ∧
  (∀ (s : State) (i : Instr), s.cfg.rdy = false → (∀ e, i ≠ .init e) →
    exec i s = .next { s with status := ⟨.state, false, true⟩ })

/-- R82, R83, R122: HASH with KIND above 3 or with ABS = 1 raises INVALID_ARGUMENT, code 1, and changes nothing but STATUS;
no other command raises it. -/
def Obligations.InvalidArgumentIsHashOnly : Prop :=
  ErrCode.invalidArgument.code = 1 ∧
  (∀ (s : State) (kind : Nat) (absent : Bool), s.cfg.rdy = true → 3 < kind ∨ absent = true →
    exec (.hash kind absent) s = .next { s with status := ⟨.invalidArgument, false, true⟩ }) ∧
  (∀ (i : Instr) (s t : State), exec i s = .next t → (∀ kind absent, i ≠ .hash kind absent) →
    t.status.err ≠ .invalidArgument)

/-- R123, R48: a sequence that does not fit its memory, the sum taken without wrap, raises RANGE, code 2, and changes
nothing but STATUS; a command whose ABS bit is 1 never raises it. -/
def Obligations.RangeErrors : Prop :=
  ErrCode.range.code = 2 ∧
  (∀ (s : State) (i : Instr), s.cfg.rdy = true → i = .encw false ∨ i = .decw false →
    s.sizes.wmWords < s.src.toNat + s.len.toNat ∨ s.sizes.wmWords < s.dst.toNat + s.len.toNat →
    exec i s = .next { s with status := ⟨.range, false, true⟩ }) ∧
  (∀ (s : State) (i : Instr), s.cfg.rdy = true → i = .encb false ∨ i = .decb false →
    s.sizes.bmBytes < s.src.toNat + s.len.toNat ∨ s.sizes.bmBytes < s.dst.toNat + s.len.toNat →
    exec i s = .next { s with status := ⟨.range, false, true⟩ }) ∧
  (∀ (s : State) (i : Instr), s.cfg.rdy = true →
    i = .encbuf false ∨ i = .decbuf false ∨ (∃ kind, kind ≤ 3 ∧ i = .hash kind false) →
    s.sizes.bmBytes < s.src.toNat + s.len.toNat →
    exec i s = .next { s with status := ⟨.range, false, true⟩ }) ∧
  (∀ (s t : State) (i : Instr), i = .encw true ∨ i = .decw true ∨ i = .encb true ∨ i = .decb true ∨
    i = .encbuf true ∨ i = .decbuf true ∨ (∃ kind, i = .hash kind true) →
    exec i s = .next t → t.status.err ≠ .range)

/-- R138, R93, R111: a cipher command with ABS = 1 completes with ERR = 0 and RABS = 1, touches no memory and leaves ESTK,
whatever SRC, DST and LEN hold; only HASH treats absence as an error. -/
def Obligations.AbsentInputPassesThrough : Prop :=
  (∀ (s : State) (i : Instr), s.cfg.rdy = true →
    i = .encw true ∨ i = .decw true ∨ i = .encb true ∨ i = .decb true ∨ i = .encbuf true ∨ i = .decbuf true →
    exec i s = .next { s with status := ⟨.ok, true, s.status.estk⟩ }) ∧
  (∀ (s : State) (kind : Nat), s.cfg.rdy = true →
    exec (.hash kind true) s = .next { s with status := ⟨.invalidArgument, false, true⟩ })

/-! ### What a command leaves (10_state.md) -/

/-- R26: no command writes KEY, VAL, SRC, DST or LEN. -/
def Obligations.CommandsKeepTheOperandRegisters : Prop :=
  ∀ (i : Instr) (s t : State), exec i s = .next t →
    t.key = s.key ∧ t.val = s.val ∧ t.src = s.src ∧ t.dst = s.dst ∧ t.len = s.len

/-- R25: RES changes only by a HASH, ENC1 or DEC1 that completes without error; a host write to it is ignored. -/
def Obligations.ResIsWrittenByThreeCommands : Prop :=
  (∀ (i : Instr) (s t : State), exec i s = .next t → t.res ≠ s.res →
    t.status.err = .ok ∧ (i = .enc1 ∨ i = .dec1 ∨ ∃ kind absent, i = .hash kind absent)) ∧
  (∀ (s : State) (v : Word) (rest : List HostAction), s.pending = .regWrite 0x20 32 v :: rest →
    step s = .next { s with pending := rest })

/-- R30, R31, R46: only ENCW and DECW write WM, only the four byte commands write BM; every other command leaves every
element of each as it reads. -/
def Obligations.MemoriesAreWrittenByTheirCommands : Prop :=
  ∀ (i : Instr) (s t : State), exec i s = .next t →
    ((∀ absent, i ≠ .encw absent ∧ i ≠ .decw absent) → ∀ a, t.wmAt a = s.wmAt a) ∧
    ((∀ absent, i ≠ .encb absent ∧ i ≠ .decb absent ∧ i ≠ .encbuf absent ∧ i ≠ .decbuf absent) →
      ∀ a, t.bmAt a = s.bmAt a)

/-- R15, R17, R44: the table and the endianness change only by INIT and by reset, and on a configured core only by
reset. -/
def Obligations.TableAndEndiannessAreWriteOnce : Prop :=
  ∀ (s t : State) (a : HostAction) (rest : List HostAction), s.pending = a :: rest → step s = .next t → a ≠ .reset →
    (s.cfg.rdy = true ∨ ∀ (c : Word) (e : Endian), a = .regWrite 0x00 32 c → decode c ≠ .ok (.init e)) →
    t.table = s.table ∧ t.cfg = s.cfg

/-- R60 (with R57): a register a command does not read does not influence it. Changing it changes the outcome in that
register alone. -/
def Obligations.UnreadOperandsDoNotMatter : Prop :=
  ∀ (s t : State) (k v a b n : Word),
    (∀ kind absent, exec (.hash kind absent) s = .next t →
      exec (.hash kind absent) { s with key := k, val := v, dst := b } =
        .next { t with key := k, val := v, dst := b }) ∧
    (∀ i, i = .enc1 ∨ i = .dec1 → exec i s = .next t →
      exec i { s with src := a, dst := b, len := n } = .next { t with src := a, dst := b, len := n }) ∧
    (∀ i, i = .encw false ∨ i = .decw false ∨ i = .encb false ∨ i = .decb false → exec i s = .next t →
      exec i { s with val := v } = .next { t with val := v }) ∧
    (∀ i, i = .encbuf false ∨ i = .decbuf false → exec i s = .next t →
      exec i { s with val := v, dst := b } = .next { t with val := v, dst := b }) ∧
    (∀ i, i = .encw true ∨ i = .decw true ∨ i = .encb true ∨ i = .decb true ∨ i = .encbuf true ∨ i = .decbuf true →
      exec i s = .next t → exec i { s with key := k, val := v, src := a, dst := b, len := n } =
        .next { t with key := k, val := v, src := a, dst := b, len := n }) ∧
    (∀ e, exec (.init e) s = .next t → exec (.init e) { s with key := k, val := v, src := a, dst := b, len := n } =
        .next { t with key := k, val := v, src := a, dst := b, len := n })

/-! ### The table generator and INIT (40_table_generator.md) -/

/-- R69, R70, R73: the drawn values are the states after each step from the start value; the first six are those listed;
every one is below the modulus, and no product reaches 2^32. -/
def Obligations.DrawsFollowTheGenerator : Prop :=
  drawn 0 = 1048577 ∧ (∀ n, drawn (n + 1) = (drawn n * 125 + 3) % 2796203) ∧
  [drawn 1, drawn 2, drawn 3, drawn 4, drawn 5, drawn 6] = [0x2555C6, 0x1036E2, 0x1576F8, 0x25C1B1, 0x1A3DF6, 0x25965D] ∧
  (∀ n, drawn (n + 1) < 0x2AAAAB) ∧ (∀ n, drawn (n + 1) * 125 + 3 ≤ 349525253) ∧ (∀ n, drawn n * 125 + 3 < 2 ^ 32)

/-- R71: entry `index1 + i*256` is made of draws 2k+1 and 2k+2 with k = 5*index1 + i. That the table is a list of exactly
the indices 0 to 1279 in rising order is the form the model gives it (DEDUCED, notes/assumptions/11.md). -/
def Obligations.TableEntriesComeFromTheirDraws : Prop :=
  buildTable.map Prod.fst = List.range 1280 ∧
  ∀ index1 i, index1 < 256 → i < 5 →
    Memory.entry? buildTable (index1 + i * 256) = some
      ((BitVec.ofNat 32 (drawn (2 * (5 * index1 + i) + 1) &&& 0xFFFF) <<< 16) |||
        BitVec.ofNat 32 (drawn (2 * (5 * index1 + i) + 2) &&& 0xFFFF))

/-- R76: an entry holds the low 16 bits of its first draw above those of its second; a draw has at most 22 bits. -/
def Obligations.EntryLayoutIsTwoHalves : Prop :=
  (∀ first second : Nat, (tableEntry first second).extractLsb' 16 16 = BitVec.ofNat 16 first ∧
    (tableEntry first second).extractLsb' 0 16 = BitVec.ofNat 16 second) ∧
  (∀ n, drawn (n + 1) < 2 ^ 22) ∧ tableEntry 0x2555C6 0x1036E2 = 0x55C636E2

/-- R74: INIT on a core that is not configured builds the table, configures the endianness, sets RDY and completes; nothing
else changes. -/
def Obligations.InitBuildsTheContext : Prop :=
  ∀ (s : State) (e : Endian), s.cfg.rdy = false →
    exec (.init e) s =
      .next { s with table := buildTable, cfg := ⟨e, true⟩, status := ⟨.ok, false, s.status.estk⟩ }

/-- R75: the table does not depend on END, on a register or on a memory, and holds the spot values of the spec. -/
def Obligations.TableIsTheSameForEveryInstance : Prop :=
  (∀ (s q : State) (e f : Endian), s.cfg.rdy = false → q.cfg.rdy = false →
    ∃ t u, exec (.init e) s = .next t ∧ exec (.init f) q = .next u ∧ t.table = u.table ∧
      [t.tableAt 0, t.tableAt 1, t.tableAt 255, t.tableAt 256, t.tableAt 512, t.tableAt 768, t.tableAt 1024,
        t.tableAt 1279] =
        [0x55C636E2, 0x02BE0170, 0x708C9EEC, 0x76F8C1B1, 0x3DF6965D, 0x15F261D3, 0x193AA698, 0x7303286C])

/-! ### The hash engine (41_hash.md) -/

/-- R77: the fold subtracts 0x20 from the bytes 0x61 to 0x7A and leaves every other byte. -/
def Obligations.FoldIsAsciiUpperCase : Prop :=
  ∀ b : Byte, (foldUpper b).toNat = if 0x61 ≤ b.toNat ∧ b.toNat ≤ 0x7A then b.toNat - 0x20 else b.toNat

/-- R78, R79, R80 (the command of R81): a HASH whose checks pass runs the two recurrences over the bytes of the string in
order, from the initial accumulators, and leaves the final seed1 in RES; nothing else changes but STATUS. -/
def Obligations.HashComputesTheRecurrence : Prop :=
  ∀ (s : State) (k : HashKind), s.cfg.rdy = true → s.src.toNat + s.len.toNat ≤ s.sizes.bmBytes →
    ∃ seed1 seed2 : Nat → Word, seed1 0 = 0x7FED7FED ∧ seed2 0 = 0xEEEEEEEE ∧
      (∀ j, j < s.len.toNat →
        seed1 (j + 1) = s.tableAt (k.value * 256 + (foldUpper (s.bmAt (s.src.toNat + j))).toNat) ^^^
          (seed1 j + seed2 j) ∧
        seed2 (j + 1) = (foldUpper (s.bmAt (s.src.toNat + j))).setWidth 32 + seed1 (j + 1) + seed2 j +
          (seed2 j <<< 5) + 3) ∧
      exec (.hash k.value false) s =
        .next { s with res := seed1 s.len.toNat, status := ⟨.ok, false, s.status.estk⟩ }

/-- R84: strings that are equal after folding have the same hash for every kind; for "foo", "FOO" and "Foo" it is the
listed value. -/
def Obligations.HashIsCaseInsensitive : Prop :=
  (∀ (T : Nat → Word) (k : HashKind) (xs ys : List Byte), xs.map foldUpper = ys.map foldUpper →
    hashBytes T k xs = hashBytes T k ys) ∧
  (∀ (s : State), s.table = buildTable →
    ∀ string, string = [0x66, 0x6F, 0x6F] ∨ string = [0x46, 0x4F, 0x4F] ∨ string = [0x46, 0x6F, 0x6F] →
      hashBytes s.tableAt .tableOffset string = 0xE5568E3C ∧ hashBytes s.tableAt .nameA string = 0x63FA8F9F ∧
      hashBytes s.tableAt .nameB string = 0x312D4839 ∧ hashBytes s.tableAt .fileKey string = 0x9402326A)

/-- R85: the empty string hashes to the initial seed1, for every valid kind; it is present, not absent, and no error. -/
def Obligations.EmptyStringHashesToTheInitialSeed : Prop :=
  ∀ (s : State) (kind : Nat), s.cfg.rdy = true → kind ≤ 3 → s.len = 0 → s.src.toNat ≤ s.sizes.bmBytes →
    exec (.hash kind false) s = .next { s with res := 0x7FED7FED, status := ⟨.ok, false, s.status.estk⟩ }

/-- R16, R61, R79: the hash of a kind reads only the table region of that kind. -/
def Obligations.HashReadsItsOwnRegion : Prop :=
  ∀ (T U : Nat → Word) (k : HashKind) (string : List Byte),
    (∀ i, k.value * 256 ≤ i → i < k.value * 256 + 256 → T i = U i) → hashBytes T k string = hashBytes U k string

/-! ### The word cipher (42_word_cipher.md) -/

/-- R87: the lookup index is 0x400 plus the low byte of the key, which the mod of the source never changes; it lies in
region 4, and for key 0 it is 1024. -/
def Obligations.LookupIndexIsInRegionFour : Prop :=
  (∀ key : Word, lookupIndex key = 0x400 + key.toNat % 256 ∧ lookupIndex key % 1280 = lookupIndex key ∧
    1024 ≤ lookupIndex key ∧ lookupIndex key ≤ 1279) ∧ lookupIndex 0 = 1024

/-- R88, R8, R9: the key schedule in natural-number arithmetic, with the spec's four examples. -/
def Obligations.KeyScheduleArithmetic : Prop :=
  (∀ key : Word, (nextKey key).toNat =
    (((2 ^ 32 - 1 - key.toNat) * 2 ^ 21 % 2 ^ 32 + 0x11111111) % 2 ^ 32) ||| (key.toNat / 2 ^ 11)) ∧
  nextKey 0x00000000 = 0x10F11111 ∧ nextKey 0xFFFFFFFF = 0x111FFFFF ∧ nextKey 0x000007FF = 0x11111111 ∧
  nextKey 0x12345678 = 0x41F3579B

/-- R89 to R92: both directions run one recurrence from seed 0xEEEEEEEE and the caller's key. The key before word `i` is the
`i`-fold key schedule; the seed is driven by the plaintext, which is the input to encrypt and the output to decrypt. -/
def Obligations.CipherFollowsTheRecurrence : Prop :=
  ∀ (T : Nat → Word) (dir : Direction) (ws : List Word) (key : Word),
    ∃ (seed : Nat → Word) (out : Nat → Word), seed 0 = 0xEEEEEEEE ∧
      cryptWords T dir ws key = (List.range ws.length).map out ∧
      ∀ (i : Nat) (w : Word), ws[i]? = some w →
        let k := nextKey^[i] key
        let seed1 := seed i + T (0x400 + k.toNat % 256)
        out i = w ^^^ (k + seed1) ∧
        seed (i + 1) = (match dir with | .encrypt => w | .decrypt => out i) + seed1 + (seed1 <<< 5) + 3

/-- R98: each direction undoes the other on every word sequence under every key; and DECW reading what ENCW wrote, with the
same KEY and LEN, restores the words. -/
def Obligations.WordRoundTrip : Prop :=
  (∀ (T : Nat → Word) (ws : List Word) (key : Word),
    cryptWords T .decrypt (cryptWords T .encrypt ws key) key = ws ∧
    cryptWords T .encrypt (cryptWords T .decrypt ws key) key = ws) ∧
  (∀ (s : State) (back : Word), s.cfg.rdy = true → s.src.toNat + s.len.toNat ≤ s.sizes.wmWords →
    s.dst.toNat + s.len.toNat ≤ s.sizes.wmWords → back.toNat + s.len.toNat ≤ s.sizes.wmWords →
    ∃ t u, exec (.encw false) s = .next t ∧ exec (.decw false) { t with src := s.dst, dst := back } = .next u ∧
      ∀ j, j < s.len.toNat → u.wmAt (back.toNat + j) = s.wmAt (s.src.toNat + j))

/-- R100: for one word the two directions give the same output; each is its own inverse; ENC1 and DEC1 have the same
outcome. -/
def Obligations.SingleWordCoincidence : Prop :=
  (∀ (T : Nat → Word) (dir : Direction) (v k : Word),
    cryptWords T dir [v] k = [v ^^^ (k + (0xEEEEEEEE + T (0x400 + (k &&& 0xFF).toNat)))] ∧
    cryptWord T dir (cryptWord T dir v k) k = v) ∧
  ∀ s : State, exec .enc1 s = exec .dec1 s

/-- R102: the output has as many words as the input. -/
def Obligations.CipherKeepsTheLength : Prop :=
  ∀ (T : Nat → Word) (dir : Direction) (ws : List Word) (key : Word), (cryptWords T dir ws key).length = ws.length

/-- R16, R87: the cipher reads only region 4 of the table. -/
def Obligations.CipherReadsRegionFour : Prop :=
  ∀ (T U : Nat → Word) (dir : Direction) (ws : List Word) (key : Word),
    (∀ i, 0x400 ≤ i → i ≤ 0x4FF → T i = U i) → cryptWords T dir ws key = cryptWords U dir ws key

/-- R96, R97: ENC1 and DEC1 on a configured core leave VAL xored with the base in RES; nothing else changes but STATUS. -/
def Obligations.SingleWordCommandsWriteRes : Prop :=
  ∀ (s : State) (i : Instr), s.cfg.rdy = true → i = .enc1 ∨ i = .dec1 →
    exec i s = .next { s with
      res := s.val ^^^ (s.key + (0xEEEEEEEE + s.tableAt (0x400 + (s.key &&& 0xFF).toNat)))
      status := ⟨.ok, false, s.status.estk⟩ }

/-- R94, R95, R47: ENCW and DECW whose ranges fit read the whole input first, leave the cipher of it in WM[DST, DST+LEN),
whatever the overlap, and change nothing else but STATUS. -/
def Obligations.WordCommandsWriteTheCipher : Prop :=
  ∀ (s : State) (i : Instr) (dir : Direction), s.cfg.rdy = true →
    (i = .encw false ∧ dir = .encrypt) ∨ (i = .decw false ∧ dir = .decrypt) →
    s.src.toNat + s.len.toNat ≤ s.sizes.wmWords → s.dst.toNat + s.len.toNat ≤ s.sizes.wmWords →
    ∃ t, exec i s = .next t ∧
      (∀ j, j < s.len.toNat → some (t.wmAt (s.dst.toNat + j)) =
        (cryptWords s.tableAt dir ((List.range s.len.toNat).map fun j => s.wmAt (s.src.toNat + j)) s.key)[j]?) ∧
      (∀ a, ¬ (s.dst.toNat ≤ a ∧ a < s.dst.toNat + s.len.toNat) → t.wmAt a = s.wmAt a) ∧
      t = { s with wm := t.wm, status := ⟨.ok, false, s.status.estk⟩ }

/-- R99: with LEN = 0, ENCW and DECW read and write nothing and complete with a present result; the range check still
applies. -/
def Obligations.EmptyWordSequenceCompletes : Prop :=
  ∀ (s : State) (i : Instr), s.cfg.rdy = true → i = .encw false ∨ i = .decw false → s.len = 0 →
    exec i s =
      if s.src.toNat ≤ s.sizes.wmWords ∧ s.dst.toNat ≤ s.sizes.wmWords then
        .next { s with status := ⟨.ok, false, s.status.estk⟩ }
      else .next { s with status := ⟨.range, false, true⟩ }

/-! ### The byte codec (43_byte_codec.md) and byte order (20_memory.md) -/

/-- R42: with END = 0 the first byte is the least significant, with END = 1 the most significant. -/
def Obligations.BytesToWordHonoursEndianness : Prop :=
  ∀ b0 b1 b2 b3 : Byte,
    (bytesToWord .little b0 b1 b2 b3).toNat =
      b0.toNat + b1.toNat * 2 ^ 8 + b2.toNat * 2 ^ 16 + b3.toNat * 2 ^ 24 ∧
    (bytesToWord .big b0 b1 b2 b3).toNat =
      b0.toNat * 2 ^ 24 + b1.toNat * 2 ^ 16 + b2.toNat * 2 ^ 8 + b3.toNat

/-- R43: a word is emitted least significant byte first, and reading those bytes little-endian gives it back. -/
def Obligations.WordToBytesIsLittleEndian : Prop :=
  ∀ w : Word, ∃ b0 b1 b2 b3 : Byte, wordToBytes w = [b0, b1, b2, b3] ∧
    b0.toNat = w.toNat % 2 ^ 8 ∧ b1.toNat = w.toNat / 2 ^ 8 % 2 ^ 8 ∧ b2.toNat = w.toNat / 2 ^ 16 % 2 ^ 8 ∧
    b3.toNat = w.toNat / 2 ^ 24 ∧ bytesToWord .little b0 b1 b2 b3 = w

/-- R103 to R108, R120: the output of the codec, byte by byte. Word `j` is read from input bytes 4j to 4j+3 with the configured
endianness; output bytes 4j to 4j+3 are its cipher word, least significant byte first; the last n mod 4 bytes are those
of the input in reverse order; and the length is that of the input. -/
def Obligations.CodecFollowsTheSixSteps : Prop :=
  ∀ (T : Nat → Word) (dir : Direction) (src : List Byte) (key : Word) (e : Endian),
    ∃ ws : List Word, ws.length = src.length / 4 ∧
      (∀ j, j < src.length / 4 → ∃ b0 b1 b2 b3, src[4 * j]? = some b0 ∧ src[4 * j + 1]? = some b1 ∧
        src[4 * j + 2]? = some b2 ∧ src[4 * j + 3]? = some b3 ∧ ws[j]? = some (bytesToWord e b0 b1 b2 b3)) ∧
      (∀ j, j < src.length / 4 → ∃ c, (cryptWords T dir ws key)[j]? = some c ∧
        ∀ q, q < 4 → (cryptBytes T dir src key e)[4 * j + q]? = some (c.extractLsb' (8 * q) 8)) ∧
      (∀ q, q < src.length % 4 →
        (cryptBytes T dir src key e)[4 * (src.length / 4) + q]? = src[src.length - 1 - q]?) ∧
      (cryptBytes T dir src key e).length = src.length

/-- R119: the last n mod 4 output bytes are the last n mod 4 input bytes in reverse order, for both directions, both
settings and every key; below 4 bytes the whole output is the input reversed. -/
def Obligations.TailIsReversedAndNotEnciphered : Prop :=
  ∀ (T : Nat → Word) (dir : Direction) (src : List Byte) (key : Word) (e : Endian),
    (cryptBytes T dir src key e).drop (src.length - src.length % 4) =
      (src.drop (src.length - src.length % 4)).reverse ∧
    (src.length < 4 → cryptBytes T dir src key e = src.reverse)

/-- R116: with the little-endian setting, decrypt undoes encrypt on every byte sequence of every length. -/
def Obligations.ByteRoundTripLittleEndian : Prop :=
  ∀ (T : Nat → Word) (bs : List Byte) (key : Word),
    cryptBytes T .decrypt (cryptBytes T .encrypt bs key .little) key .little = bs

/-- R117: encrypting with the big-endian setting and decrypting with the little-endian one reverses each 4-byte group and
restores the remainder; decrypting with the big-endian setting restores the remainder, and not the body of the spec's
example. -/
def Obligations.BigEndianDoesNotRoundTrip : Prop :=
  (∀ (T : Nat → Word) (bs : List Byte) (key : Word),
    cryptBytes T .decrypt (cryptBytes T .encrypt bs key .big) key .little =
      reverseGroups bs ++ bs.drop (bs.length - bs.length % 4) ∧
    (cryptBytes T .decrypt (cryptBytes T .encrypt bs key .big) key .big).drop (bs.length - bs.length % 4) =
      bs.drop (bs.length - bs.length % 4)) ∧
  (∀ s : State, s.table = buildTable →
    cryptBytes s.tableAt .encrypt [1, 2, 3, 4, 5, 6, 7, 8, 9] 7 .big =
      [0xD6, 0x3F, 0xE6, 0x45, 0xF1, 0x1C, 0xD7, 0xF8, 0x09] ∧
    cryptBytes s.tableAt .decrypt [0xD6, 0x3F, 0xE6, 0x45, 0xF1, 0x1C, 0xD7, 0xF8, 0x09] 7 .big =
      [0x97, 0xDA, 0xDB, 0x92, 0x74, 0x24, 0xB6, 0x7E, 0x09])

/-- R118: the two settings give different ciphertext whenever some 4-byte group is not a byte palindrome, and the same
below 4 bytes; and the spec's example. -/
def Obligations.EndiannessChangesTheCiphertext : Prop :=
  (∀ s : State, s.table = buildTable →
    cryptBytes s.tableAt .encrypt [0x11, 0x22, 0x33, 0x44, 0xA0, 0xA1, 0xA2] 0x0000ABCD .little =
      [0x82, 0xAE, 0x3A, 0x42, 0xA2, 0xA1, 0xA0] ∧
    cryptBytes s.tableAt .encrypt [0x11, 0x22, 0x33, 0x44, 0xA0, 0xA1, 0xA2] 0x0000ABCD .big =
      [0xD7, 0xBF, 0x2B, 0x17, 0xA2, 0xA1, 0xA0]) ∧
  ∀ (T : Nat → Word) (src : List Byte) (key : Word),
    (∀ (j : Nat) (b0 b1 b2 b3 : Byte), j < src.length / 4 → src[4 * j]? = some b0 → src[4 * j + 1]? = some b1 →
      src[4 * j + 2]? = some b2 → src[4 * j + 3]? = some b3 → ¬ (b0 = b3 ∧ b1 = b2) →
      cryptBytes T .encrypt src key .little ≠ cryptBytes T .encrypt src key .big) ∧
    (src.length < 4 → cryptBytes T .encrypt src key .little = cryptBytes T .encrypt src key .big)

/-- R112, R113, R47: ENCB and DECB whose ranges fit read the whole input first, leave the codec's output for KEY and the
configured endianness in BM[DST, DST+LEN), whatever the overlap, and change nothing else but STATUS. -/
def Obligations.ByteCommandsWriteTheCipher : Prop :=
  ∀ (s : State) (i : Instr) (dir : Direction), s.cfg.rdy = true →
    (i = .encb false ∧ dir = .encrypt) ∨ (i = .decb false ∧ dir = .decrypt) →
    s.src.toNat + s.len.toNat ≤ s.sizes.bmBytes → s.dst.toNat + s.len.toNat ≤ s.sizes.bmBytes →
    ∃ t, exec i s = .next t ∧
      (∀ j, j < s.len.toNat → some (t.bmAt (s.dst.toNat + j)) =
        (cryptBytes s.tableAt dir ((List.range s.len.toNat).map fun j => s.bmAt (s.src.toNat + j)) s.key
          s.cfg.endian)[j]?) ∧
      (∀ a, ¬ (s.dst.toNat ≤ a ∧ a < s.dst.toNat + s.len.toNat) → t.bmAt a = s.bmAt a) ∧
      t = { s with bm := t.bm, status := ⟨.ok, false, s.status.estk⟩ }

/-- R114, R115: ENCBUF and DECBUF do the same in place, on BM[SRC, SRC+LEN), whatever DST holds. -/
def Obligations.BufferCommandsWriteInPlace : Prop :=
  ∀ (s : State) (i : Instr) (dir : Direction), s.cfg.rdy = true →
    (i = .encbuf false ∧ dir = .encrypt) ∨ (i = .decbuf false ∧ dir = .decrypt) →
    s.src.toNat + s.len.toNat ≤ s.sizes.bmBytes →
    ∃ t, exec i s = .next t ∧
      (∀ j, j < s.len.toNat → some (t.bmAt (s.src.toNat + j)) =
        (cryptBytes s.tableAt dir ((List.range s.len.toNat).map fun j => s.bmAt (s.src.toNat + j)) s.key
          s.cfg.endian)[j]?) ∧
      (∀ a, ¬ (s.src.toNat ≤ a ∧ a < s.src.toNat + s.len.toNat) → t.bmAt a = s.bmAt a) ∧
      t = { s with bm := t.bm, status := ⟨.ok, false, s.status.estk⟩ }

/-! ### The host's accesses (20_memory.md R36 to R39, R49) -/

/-- R49: a host read changes nothing in the core, and a host write other than to CMD stores at most the value written. -/
def Obligations.OnlyCmdWritesHaveSideEffects : Prop :=
  ∀ (s t : State) (a : HostAction) (rest : List HostAction), s.pending = a :: rest → step s = .next t →
    (a.isRead = true → ∃ v, t = { s with pending := rest, replies := s.replies ++ [v] }) ∧
    (∀ offset width v, a = .regWrite offset width v → offset ≠ 0x00 →
      t = { s with pending := rest, key := t.key, val := t.val, src := t.src, dst := t.dst, len := t.len } ∧
      ((t.key = s.key ∨ offset = 0x0C ∧ t.key = v) ∧ (t.val = s.val ∨ offset = 0x10 ∧ t.val = v) ∧
        (t.src = s.src ∨ offset = 0x14 ∧ t.src = v) ∧ (t.dst = s.dst ∨ offset = 0x18 ∧ t.dst = v) ∧
        (t.len = s.len ∨ offset = 0x1C ∧ t.len = v))) ∧
    (∀ i v, a = .tromWrite i v → t = { s with pending := rest }) ∧
    (∀ i v, a = .wmWrite i v → t = { s with pending := rest, wm := t.wm } ∧
      ∀ b, t.wmAt b = if b = i then v else s.wmAt b) ∧
    (∀ i v, a = .bmWrite i v → t = { s with pending := rest, bm := t.bm } ∧
      ∀ b, t.bmAt b = if b = i then v else s.bmAt b)

/-- R36: a host write of KEY, VAL, SRC, DST or LEN is what the next host read of that register returns. -/
def Obligations.OperandRegistersReadBack : Prop :=
  ∀ (s : State) (offset : Nat) (v : Word) (rest : List HostAction),
    offset = 0x0C ∨ offset = 0x10 ∨ offset = 0x14 ∨ offset = 0x18 ∨ offset = 0x1C →
    s.pending = .regWrite offset 32 v :: .regRead offset 32 :: rest →
    ∃ t u, step s = .next t ∧ step t = .next u ∧ u.replies = s.replies ++ [v] ∧ u.pending = rest

/-- R17, R18, R19, R25, R36: CMD reads 0; STATUS and CFG read as laid out, with zeros above; RES reads its value; and a
write to STATUS, CFG or RES is ignored. -/
def Obligations.ReadOnlyRegisters : Prop :=
  (∀ (st : Status), st.word.toNat =
    st.err.code.toNat + (if st.rabs = true then 2 ^ 4 else 0) + (if st.estk = true then 2 ^ 5 else 0)) ∧
  (∀ (c : Cfg), c.word.toNat = (if c.endian = .big then 1 else 0) + (if c.rdy = true then 2 else 0)) ∧
  (∀ (s : State) (offset : Nat) (rest : List HostAction), s.pending = .regRead offset 32 :: rest →
    offset = 0x00 ∨ offset = 0x04 ∨ offset = 0x08 ∨ offset = 0x20 →
    step s = .next { s with
      pending := rest
      replies := s.replies ++
        [if offset = 0x00 then 0 else if offset = 0x04 then s.status.word else if offset = 0x08 then s.cfg.word
          else s.res] }) ∧
  (∀ (s : State) (offset : Nat) (v : Word) (rest : List HostAction), s.pending = .regWrite offset 32 v :: rest →
    offset = 0x04 ∨ offset = 0x08 ∨ offset = 0x20 → step s = .next { s with pending := rest })

/-- R37: the TROM window reads the table of a configured core, is refused before INIT and above 1279, and ignores writes in
every state. -/
def Obligations.TromWindow : Prop :=
  ∀ (s : State) (i : Nat) (v : Word) (rest : List HostAction),
    (s.pending = .tromRead i :: rest → i ≤ 1279 → s.cfg.rdy = true →
      step s = .next { s with pending := rest, replies := s.replies ++ [s.tableAt i] }) ∧
    (s.pending = .tromRead i :: rest → s.cfg.rdy = false → ∃ r, step s = .refused r) ∧
    (s.pending = .tromWrite i v :: rest → i ≤ 1279 → step s = .next { s with pending := rest }) ∧
    (s.pending = .tromRead i :: rest ∨ s.pending = .tromWrite i v :: rest → 1279 < i → ∃ r, step s = .refused r)

/-- R38, R39: a host read of WM or BM returns the element and changes nothing in the core; a host write stores that one
element and no other; and an access outside the memory is refused. -/
def Obligations.MemoryWindows : Prop :=
  (∀ (s : State) (i : Nat) (v : Word) (rest : List HostAction),
    (s.pending = .wmRead i :: rest → i < s.sizes.wmWords →
      step s = .next { s with pending := rest, replies := s.replies ++ [s.wmAt i] }) ∧
    (s.pending = .wmWrite i v :: rest → i < s.sizes.wmWords →
      ∃ t, step s = .next t ∧ t = { s with pending := rest, wm := t.wm } ∧
        ∀ a, t.wmAt a = if a = i then v else s.wmAt a) ∧
    (s.pending = .wmRead i :: rest ∨ s.pending = .wmWrite i v :: rest → s.sizes.wmWords ≤ i →
      ∃ r, step s = .refused r)) ∧
  (∀ (s : State) (b : Nat) (v : Byte) (rest : List HostAction),
    (s.pending = .bmRead b :: rest → b < s.sizes.bmBytes →
      step s = .next { s with pending := rest, replies := s.replies ++ [(s.bmAt b).setWidth 32] }) ∧
    (s.pending = .bmWrite b v :: rest → b < s.sizes.bmBytes →
      ∃ t, step s = .next t ∧ t = { s with pending := rest, bm := t.bm } ∧
        ∀ a, t.bmAt a = if a = b then v else s.bmAt a) ∧
    (s.pending = .bmRead b :: rest ∨ s.pending = .bmWrite b v :: rest → s.sizes.bmBytes ≤ b →
      ∃ r, step s = .refused r))

/-! ### Reset and the invariant -/

/-- R34, R139: reset puts every register at 0, CFG and STATUS at 0, and leaves the table and the memories unspecified, which
in this model (its choice, notes/assumptions/3.md and 4.md) is that no element of them is listed; the reset state is
such a state. -/
def Obligations.ResetLeavesTheSpecifiedValues : Prop :=
  (∀ (s : State) (rest : List HostAction), s.pending = .reset :: rest → ∃ t, step s = .next t ∧
    t.cfg.word = 0 ∧ t.status.word = 0 ∧ t.key = 0 ∧ t.val = 0 ∧ t.src = 0 ∧ t.dst = 0 ∧ t.len = 0 ∧ t.res = 0 ∧
    (∀ a, Memory.entry? t.table a = none ∧ Memory.entry? t.wm a = none ∧ Memory.entry? t.bm a = none) ∧
    t.pending = rest) ∧
  State.reset.cfg.word = 0 ∧ State.reset.status.word = 0 ∧
  [State.reset.key, State.reset.val, State.reset.src, State.reset.dst, State.reset.len, State.reset.res] =
    [0, 0, 0, 0, 0, 0] ∧
  State.reset.table = [] ∧ State.reset.wm = [] ∧ State.reset.bm = []

/-- The invariant holds of the reset state (R34, R7). The sizes of the reset state are the model's choice
(notes/assumptions/1.md). -/
def Obligations.ResetMeetsTheInvariant : Prop := State.reset.Inv

/-- Every step keeps the invariant, from every state that meets it, and no step changes the sizes (R7, R15, R17, R18, R30,
R31, R34, R129, R131, R138). The canonical form of the memories is the model's own (notes/assumptions/3.md). -/
def Obligations.EveryStepKeepsTheInvariant : Prop :=
  ∀ s t : State, s.Inv → step s = .next t → t.Inv ∧ t.sizes = s.sizes
end

