-- ==== Sys2Proof/Laws/State.lean ====
section
/-! SUPPORT. One lemma per field per named update of the state, so that no proof unfolds an update. -/

namespace Sys2Proof.Machine

/-! ### `State.complete` (R132) -/

@[simp] theorem State.complete_table (s : State) (a : Bool) : (s.complete a).table = s.table := rfl
@[simp] theorem State.complete_cfg (s : State) (a : Bool) : (s.complete a).cfg = s.cfg := rfl
@[simp] theorem State.complete_status (s : State) (a : Bool) : (s.complete a).status = { s.status with err := .ok, rabs := a } := rfl
@[simp] theorem State.complete_key (s : State) (a : Bool) : (s.complete a).key = s.key := rfl
@[simp] theorem State.complete_val (s : State) (a : Bool) : (s.complete a).val = s.val := rfl
@[simp] theorem State.complete_src (s : State) (a : Bool) : (s.complete a).src = s.src := rfl
@[simp] theorem State.complete_dst (s : State) (a : Bool) : (s.complete a).dst = s.dst := rfl
@[simp] theorem State.complete_len (s : State) (a : Bool) : (s.complete a).len = s.len := rfl
@[simp] theorem State.complete_res (s : State) (a : Bool) : (s.complete a).res = s.res := rfl
@[simp] theorem State.complete_wm (s : State) (a : Bool) : (s.complete a).wm = s.wm := rfl
@[simp] theorem State.complete_bm (s : State) (a : Bool) : (s.complete a).bm = s.bm := rfl
@[simp] theorem State.complete_sizes (s : State) (a : Bool) : (s.complete a).sizes = s.sizes := rfl
@[simp] theorem State.complete_resetCount (s : State) (a : Bool) : (s.complete a).resetCount = s.resetCount := rfl
@[simp] theorem State.complete_pending (s : State) (a : Bool) : (s.complete a).pending = s.pending := rfl
@[simp] theorem State.complete_replies (s : State) (a : Bool) : (s.complete a).replies = s.replies := rfl

/-! ### `State.raiseError` (R129) -/

@[simp] theorem State.raiseError_table (s : State) (e : ErrCode) : (s.raiseError e).table = s.table := rfl
@[simp] theorem State.raiseError_cfg (s : State) (e : ErrCode) : (s.raiseError e).cfg = s.cfg := rfl
@[simp] theorem State.raiseError_status (s : State) (e : ErrCode) : (s.raiseError e).status = ⟨e, false, true⟩ := rfl
@[simp] theorem State.raiseError_key (s : State) (e : ErrCode) : (s.raiseError e).key = s.key := rfl
@[simp] theorem State.raiseError_val (s : State) (e : ErrCode) : (s.raiseError e).val = s.val := rfl
@[simp] theorem State.raiseError_src (s : State) (e : ErrCode) : (s.raiseError e).src = s.src := rfl
@[simp] theorem State.raiseError_dst (s : State) (e : ErrCode) : (s.raiseError e).dst = s.dst := rfl
@[simp] theorem State.raiseError_len (s : State) (e : ErrCode) : (s.raiseError e).len = s.len := rfl
@[simp] theorem State.raiseError_res (s : State) (e : ErrCode) : (s.raiseError e).res = s.res := rfl
@[simp] theorem State.raiseError_wm (s : State) (e : ErrCode) : (s.raiseError e).wm = s.wm := rfl
@[simp] theorem State.raiseError_bm (s : State) (e : ErrCode) : (s.raiseError e).bm = s.bm := rfl
@[simp] theorem State.raiseError_sizes (s : State) (e : ErrCode) : (s.raiseError e).sizes = s.sizes := rfl
@[simp] theorem State.raiseError_resetCount (s : State) (e : ErrCode) : (s.raiseError e).resetCount = s.resetCount := rfl
@[simp] theorem State.raiseError_pending (s : State) (e : ErrCode) : (s.raiseError e).pending = s.pending := rfl
@[simp] theorem State.raiseError_replies (s : State) (e : ErrCode) : (s.raiseError e).replies = s.replies := rfl

/-! ### `State.writeWords` (R94) -/

@[simp] theorem State.writeWords_table (s : State) (a : Nat) (ws : List Word) : (s.writeWords a ws).table = s.table := rfl
@[simp] theorem State.writeWords_cfg (s : State) (a : Nat) (ws : List Word) : (s.writeWords a ws).cfg = s.cfg := rfl
@[simp] theorem State.writeWords_status (s : State) (a : Nat) (ws : List Word) : (s.writeWords a ws).status = s.status := rfl
@[simp] theorem State.writeWords_key (s : State) (a : Nat) (ws : List Word) : (s.writeWords a ws).key = s.key := rfl
@[simp] theorem State.writeWords_val (s : State) (a : Nat) (ws : List Word) : (s.writeWords a ws).val = s.val := rfl
@[simp] theorem State.writeWords_src (s : State) (a : Nat) (ws : List Word) : (s.writeWords a ws).src = s.src := rfl
@[simp] theorem State.writeWords_dst (s : State) (a : Nat) (ws : List Word) : (s.writeWords a ws).dst = s.dst := rfl
@[simp] theorem State.writeWords_len (s : State) (a : Nat) (ws : List Word) : (s.writeWords a ws).len = s.len := rfl
@[simp] theorem State.writeWords_res (s : State) (a : Nat) (ws : List Word) : (s.writeWords a ws).res = s.res := rfl
@[simp] theorem State.writeWords_wm (s : State) (a : Nat) (ws : List Word) : (s.writeWords a ws).wm = Memory.writeSeq s.wm a ws := rfl
@[simp] theorem State.writeWords_bm (s : State) (a : Nat) (ws : List Word) : (s.writeWords a ws).bm = s.bm := rfl
@[simp] theorem State.writeWords_sizes (s : State) (a : Nat) (ws : List Word) : (s.writeWords a ws).sizes = s.sizes := rfl
@[simp] theorem State.writeWords_resetCount (s : State) (a : Nat) (ws : List Word) : (s.writeWords a ws).resetCount = s.resetCount := rfl
@[simp] theorem State.writeWords_pending (s : State) (a : Nat) (ws : List Word) : (s.writeWords a ws).pending = s.pending := rfl
@[simp] theorem State.writeWords_replies (s : State) (a : Nat) (ws : List Word) : (s.writeWords a ws).replies = s.replies := rfl

/-! ### `State.writeBytes` (R112) -/

@[simp] theorem State.writeBytes_table (s : State) (a : Nat) (bs : List Byte) : (s.writeBytes a bs).table = s.table := rfl
@[simp] theorem State.writeBytes_cfg (s : State) (a : Nat) (bs : List Byte) : (s.writeBytes a bs).cfg = s.cfg := rfl
@[simp] theorem State.writeBytes_status (s : State) (a : Nat) (bs : List Byte) : (s.writeBytes a bs).status = s.status := rfl
@[simp] theorem State.writeBytes_key (s : State) (a : Nat) (bs : List Byte) : (s.writeBytes a bs).key = s.key := rfl
@[simp] theorem State.writeBytes_val (s : State) (a : Nat) (bs : List Byte) : (s.writeBytes a bs).val = s.val := rfl
@[simp] theorem State.writeBytes_src (s : State) (a : Nat) (bs : List Byte) : (s.writeBytes a bs).src = s.src := rfl
@[simp] theorem State.writeBytes_dst (s : State) (a : Nat) (bs : List Byte) : (s.writeBytes a bs).dst = s.dst := rfl
@[simp] theorem State.writeBytes_len (s : State) (a : Nat) (bs : List Byte) : (s.writeBytes a bs).len = s.len := rfl
@[simp] theorem State.writeBytes_res (s : State) (a : Nat) (bs : List Byte) : (s.writeBytes a bs).res = s.res := rfl
@[simp] theorem State.writeBytes_wm (s : State) (a : Nat) (bs : List Byte) : (s.writeBytes a bs).wm = s.wm := rfl
@[simp] theorem State.writeBytes_bm (s : State) (a : Nat) (bs : List Byte) : (s.writeBytes a bs).bm = Memory.writeSeq s.bm a bs := rfl
@[simp] theorem State.writeBytes_sizes (s : State) (a : Nat) (bs : List Byte) : (s.writeBytes a bs).sizes = s.sizes := rfl
@[simp] theorem State.writeBytes_resetCount (s : State) (a : Nat) (bs : List Byte) : (s.writeBytes a bs).resetCount = s.resetCount := rfl
@[simp] theorem State.writeBytes_pending (s : State) (a : Nat) (bs : List Byte) : (s.writeBytes a bs).pending = s.pending := rfl
@[simp] theorem State.writeBytes_replies (s : State) (a : Nat) (bs : List Byte) : (s.writeBytes a bs).replies = s.replies := rfl

/-! ### `State.writeRes` (R25) -/

@[simp] theorem State.writeRes_table (s : State) (v : Word) : (s.writeRes v).table = s.table := rfl
@[simp] theorem State.writeRes_cfg (s : State) (v : Word) : (s.writeRes v).cfg = s.cfg := rfl
@[simp] theorem State.writeRes_status (s : State) (v : Word) : (s.writeRes v).status = s.status := rfl
@[simp] theorem State.writeRes_key (s : State) (v : Word) : (s.writeRes v).key = s.key := rfl
@[simp] theorem State.writeRes_val (s : State) (v : Word) : (s.writeRes v).val = s.val := rfl
@[simp] theorem State.writeRes_src (s : State) (v : Word) : (s.writeRes v).src = s.src := rfl
@[simp] theorem State.writeRes_dst (s : State) (v : Word) : (s.writeRes v).dst = s.dst := rfl
@[simp] theorem State.writeRes_len (s : State) (v : Word) : (s.writeRes v).len = s.len := rfl
@[simp] theorem State.writeRes_res (s : State) (v : Word) : (s.writeRes v).res = v := rfl
@[simp] theorem State.writeRes_wm (s : State) (v : Word) : (s.writeRes v).wm = s.wm := rfl
@[simp] theorem State.writeRes_bm (s : State) (v : Word) : (s.writeRes v).bm = s.bm := rfl
@[simp] theorem State.writeRes_sizes (s : State) (v : Word) : (s.writeRes v).sizes = s.sizes := rfl
@[simp] theorem State.writeRes_resetCount (s : State) (v : Word) : (s.writeRes v).resetCount = s.resetCount := rfl
@[simp] theorem State.writeRes_pending (s : State) (v : Word) : (s.writeRes v).pending = s.pending := rfl
@[simp] theorem State.writeRes_replies (s : State) (v : Word) : (s.writeRes v).replies = s.replies := rfl

/-! ### `State.install` (R74) -/

@[simp] theorem State.install_table (s : State) (t : Memory Word) (e : Endian) : (s.install t e).table = t := rfl
@[simp] theorem State.install_cfg (s : State) (t : Memory Word) (e : Endian) : (s.install t e).cfg = ⟨e, true⟩ := rfl
@[simp] theorem State.install_status (s : State) (t : Memory Word) (e : Endian) : (s.install t e).status = s.status := rfl
@[simp] theorem State.install_key (s : State) (t : Memory Word) (e : Endian) : (s.install t e).key = s.key := rfl
@[simp] theorem State.install_val (s : State) (t : Memory Word) (e : Endian) : (s.install t e).val = s.val := rfl
@[simp] theorem State.install_src (s : State) (t : Memory Word) (e : Endian) : (s.install t e).src = s.src := rfl
@[simp] theorem State.install_dst (s : State) (t : Memory Word) (e : Endian) : (s.install t e).dst = s.dst := rfl
@[simp] theorem State.install_len (s : State) (t : Memory Word) (e : Endian) : (s.install t e).len = s.len := rfl
@[simp] theorem State.install_res (s : State) (t : Memory Word) (e : Endian) : (s.install t e).res = s.res := rfl
@[simp] theorem State.install_wm (s : State) (t : Memory Word) (e : Endian) : (s.install t e).wm = s.wm := rfl
@[simp] theorem State.install_bm (s : State) (t : Memory Word) (e : Endian) : (s.install t e).bm = s.bm := rfl
@[simp] theorem State.install_sizes (s : State) (t : Memory Word) (e : Endian) : (s.install t e).sizes = s.sizes := rfl
@[simp] theorem State.install_resetCount (s : State) (t : Memory Word) (e : Endian) : (s.install t e).resetCount = s.resetCount := rfl
@[simp] theorem State.install_pending (s : State) (t : Memory Word) (e : Endian) : (s.install t e).pending = s.pending := rfl
@[simp] theorem State.install_replies (s : State) (t : Memory Word) (e : Endian) : (s.install t e).replies = s.replies := rfl

/-! ### `State.reply` (R49) -/

@[simp] theorem State.reply_table (s : State) (v : Word) : (s.reply v).table = s.table := rfl
@[simp] theorem State.reply_cfg (s : State) (v : Word) : (s.reply v).cfg = s.cfg := rfl
@[simp] theorem State.reply_status (s : State) (v : Word) : (s.reply v).status = s.status := rfl
@[simp] theorem State.reply_key (s : State) (v : Word) : (s.reply v).key = s.key := rfl
@[simp] theorem State.reply_val (s : State) (v : Word) : (s.reply v).val = s.val := rfl
@[simp] theorem State.reply_src (s : State) (v : Word) : (s.reply v).src = s.src := rfl
@[simp] theorem State.reply_dst (s : State) (v : Word) : (s.reply v).dst = s.dst := rfl
@[simp] theorem State.reply_len (s : State) (v : Word) : (s.reply v).len = s.len := rfl
@[simp] theorem State.reply_res (s : State) (v : Word) : (s.reply v).res = s.res := rfl
@[simp] theorem State.reply_wm (s : State) (v : Word) : (s.reply v).wm = s.wm := rfl
@[simp] theorem State.reply_bm (s : State) (v : Word) : (s.reply v).bm = s.bm := rfl
@[simp] theorem State.reply_sizes (s : State) (v : Word) : (s.reply v).sizes = s.sizes := rfl
@[simp] theorem State.reply_resetCount (s : State) (v : Word) : (s.reply v).resetCount = s.resetCount := rfl
@[simp] theorem State.reply_pending (s : State) (v : Word) : (s.reply v).pending = s.pending := rfl
@[simp] theorem State.reply_replies (s : State) (v : Word) : (s.reply v).replies = s.replies ++ [v] := rfl

/-! ### `State.withPending` (R50) -/

@[simp] theorem State.withPending_table (s : State) (l : List HostAction) : (s.withPending l).table = s.table := rfl
@[simp] theorem State.withPending_cfg (s : State) (l : List HostAction) : (s.withPending l).cfg = s.cfg := rfl
@[simp] theorem State.withPending_status (s : State) (l : List HostAction) : (s.withPending l).status = s.status := rfl
@[simp] theorem State.withPending_key (s : State) (l : List HostAction) : (s.withPending l).key = s.key := rfl
@[simp] theorem State.withPending_val (s : State) (l : List HostAction) : (s.withPending l).val = s.val := rfl
@[simp] theorem State.withPending_src (s : State) (l : List HostAction) : (s.withPending l).src = s.src := rfl
@[simp] theorem State.withPending_dst (s : State) (l : List HostAction) : (s.withPending l).dst = s.dst := rfl
@[simp] theorem State.withPending_len (s : State) (l : List HostAction) : (s.withPending l).len = s.len := rfl
@[simp] theorem State.withPending_res (s : State) (l : List HostAction) : (s.withPending l).res = s.res := rfl
@[simp] theorem State.withPending_wm (s : State) (l : List HostAction) : (s.withPending l).wm = s.wm := rfl
@[simp] theorem State.withPending_bm (s : State) (l : List HostAction) : (s.withPending l).bm = s.bm := rfl
@[simp] theorem State.withPending_sizes (s : State) (l : List HostAction) : (s.withPending l).sizes = s.sizes := rfl
@[simp] theorem State.withPending_resetCount (s : State) (l : List HostAction) : (s.withPending l).resetCount = s.resetCount := rfl
@[simp] theorem State.withPending_pending (s : State) (l : List HostAction) : (s.withPending l).pending = l := rfl
@[simp] theorem State.withPending_replies (s : State) (l : List HostAction) : (s.withPending l).replies = s.replies := rfl

/-! ### `State.applyReset` (R139) -/

@[simp] theorem State.applyReset_table (s : State) : (s.applyReset).table = [] := rfl
@[simp] theorem State.applyReset_cfg (s : State) : (s.applyReset).cfg = ⟨.little, false⟩ := rfl
@[simp] theorem State.applyReset_status (s : State) : (s.applyReset).status = ⟨.ok, false, false⟩ := rfl
@[simp] theorem State.applyReset_key (s : State) : (s.applyReset).key = 0 := rfl
@[simp] theorem State.applyReset_val (s : State) : (s.applyReset).val = 0 := rfl
@[simp] theorem State.applyReset_src (s : State) : (s.applyReset).src = 0 := rfl
@[simp] theorem State.applyReset_dst (s : State) : (s.applyReset).dst = 0 := rfl
@[simp] theorem State.applyReset_len (s : State) : (s.applyReset).len = 0 := rfl
@[simp] theorem State.applyReset_res (s : State) : (s.applyReset).res = 0 := rfl
@[simp] theorem State.applyReset_wm (s : State) : (s.applyReset).wm = [] := rfl
@[simp] theorem State.applyReset_bm (s : State) : (s.applyReset).bm = [] := rfl
@[simp] theorem State.applyReset_sizes (s : State) : (s.applyReset).sizes = s.sizes := rfl
@[simp] theorem State.applyReset_resetCount (s : State) : (s.applyReset).resetCount = s.resetCount + 1 := rfl
@[simp] theorem State.applyReset_pending (s : State) : (s.applyReset).pending = s.pending := rfl
@[simp] theorem State.applyReset_replies (s : State) : (s.applyReset).replies = s.replies := rfl

/-! ### Reads of the table and the memories after an update that does not touch them -/

@[simp] theorem State.tableAt_complete (s : State) (a : Bool) : (s.complete a).tableAt = s.tableAt := rfl
@[simp] theorem State.tableAt_raiseError (s : State) (e : ErrCode) : (s.raiseError e).tableAt = s.tableAt := rfl
@[simp] theorem State.tableAt_writeWords (s : State) (a : Nat) (ws : List Word) : (s.writeWords a ws).tableAt = s.tableAt := rfl
@[simp] theorem State.tableAt_writeBytes (s : State) (a : Nat) (bs : List Byte) : (s.writeBytes a bs).tableAt = s.tableAt := rfl
@[simp] theorem State.tableAt_writeRes (s : State) (v : Word) : (s.writeRes v).tableAt = s.tableAt := rfl
@[simp] theorem State.tableAt_reply (s : State) (v : Word) : (s.reply v).tableAt = s.tableAt := rfl
@[simp] theorem State.tableAt_withPending (s : State) (l : List HostAction) : (s.withPending l).tableAt = s.tableAt := rfl
@[simp] theorem State.wmAt_complete (s : State) (a : Bool) : (s.complete a).wmAt = s.wmAt := rfl
@[simp] theorem State.wmAt_raiseError (s : State) (e : ErrCode) : (s.raiseError e).wmAt = s.wmAt := rfl
@[simp] theorem State.wmAt_writeBytes (s : State) (a : Nat) (bs : List Byte) : (s.writeBytes a bs).wmAt = s.wmAt := rfl
@[simp] theorem State.wmAt_writeRes (s : State) (v : Word) : (s.writeRes v).wmAt = s.wmAt := rfl
@[simp] theorem State.wmAt_install (s : State) (t : Memory Word) (e : Endian) : (s.install t e).wmAt = s.wmAt := rfl
@[simp] theorem State.wmAt_reply (s : State) (v : Word) : (s.reply v).wmAt = s.wmAt := rfl
@[simp] theorem State.wmAt_withPending (s : State) (l : List HostAction) : (s.withPending l).wmAt = s.wmAt := rfl
@[simp] theorem State.bmAt_complete (s : State) (a : Bool) : (s.complete a).bmAt = s.bmAt := rfl
@[simp] theorem State.bmAt_raiseError (s : State) (e : ErrCode) : (s.raiseError e).bmAt = s.bmAt := rfl
@[simp] theorem State.bmAt_writeWords (s : State) (a : Nat) (ws : List Word) : (s.writeWords a ws).bmAt = s.bmAt := rfl
@[simp] theorem State.bmAt_writeRes (s : State) (v : Word) : (s.writeRes v).bmAt = s.bmAt := rfl
@[simp] theorem State.bmAt_install (s : State) (t : Memory Word) (e : Endian) : (s.install t e).bmAt = s.bmAt := rfl
@[simp] theorem State.bmAt_reply (s : State) (v : Word) : (s.reply v).bmAt = s.bmAt := rfl
@[simp] theorem State.bmAt_withPending (s : State) (l : List HostAction) : (s.withPending l).bmAt = s.bmAt := rfl

/-! ### `State.writeReg` (R36): which fields a host register write leaves -/

@[simp] theorem State.writeReg_table (s : State) (r : Reg) (v : Word) : (s.writeReg r v).table = s.table := by
  cases r <;> rfl
@[simp] theorem State.writeReg_cfg (s : State) (r : Reg) (v : Word) : (s.writeReg r v).cfg = s.cfg := by
  cases r <;> rfl
@[simp] theorem State.writeReg_status (s : State) (r : Reg) (v : Word) : (s.writeReg r v).status = s.status := by
  cases r <;> rfl
@[simp] theorem State.writeReg_res (s : State) (r : Reg) (v : Word) : (s.writeReg r v).res = s.res := by
  cases r <;> rfl
@[simp] theorem State.writeReg_wm (s : State) (r : Reg) (v : Word) : (s.writeReg r v).wm = s.wm := by
  cases r <;> rfl
@[simp] theorem State.writeReg_bm (s : State) (r : Reg) (v : Word) : (s.writeReg r v).bm = s.bm := by
  cases r <;> rfl
@[simp] theorem State.writeReg_sizes (s : State) (r : Reg) (v : Word) : (s.writeReg r v).sizes = s.sizes := by
  cases r <;> rfl
@[simp] theorem State.writeReg_resetCount (s : State) (r : Reg) (v : Word) : (s.writeReg r v).resetCount = s.resetCount := by
  cases r <;> rfl
@[simp] theorem State.writeReg_pending (s : State) (r : Reg) (v : Word) : (s.writeReg r v).pending = s.pending := by
  cases r <;> rfl
@[simp] theorem State.writeReg_replies (s : State) (r : Reg) (v : Word) : (s.writeReg r v).replies = s.replies := by
  cases r <;> rfl
@[simp] theorem State.writeReg_key_self (s : State) (v : Word) : (s.writeReg .key v).key = v := rfl
@[simp] theorem State.writeReg_val_self (s : State) (v : Word) : (s.writeReg .val v).val = v := rfl
@[simp] theorem State.writeReg_src_self (s : State) (v : Word) : (s.writeReg .src v).src = v := rfl
@[simp] theorem State.writeReg_dst_self (s : State) (v : Word) : (s.writeReg .dst v).dst = v := rfl
@[simp] theorem State.writeReg_len_self (s : State) (v : Word) : (s.writeReg .len v).len = v := rfl

/-- A register the host can write reads back what was written (R36). -/
theorem State.readReg_writeReg_self (s : State) (v : Word) {r : Reg} (h : r ∈ [Reg.key, .val, .src, .dst, .len]) :
    (s.writeReg r v).readReg r = v := by
  cases r <;> first | rfl | exact absurd h (by decide)

/-- A write of one register leaves what the others read (R36). -/
theorem State.readReg_writeReg_ne (s : State) (v : Word) {r q : Reg} (h : q ≠ r) :
    (s.writeReg r v).readReg q = s.readReg q := by
  cases r <;> cases q <;> first | rfl | exact absurd rfl h

end Sys2Proof.Machine
end

