-- ==== Sys2Proof/Laws/Access.lean ====
section
/-! SUPPORT. What a host access and a step can do, said once. -/

namespace Sys2Proof.Machine

/-- A register access names a register exactly when it is 32 bits wide at a multiple of 4 up to 0x20 (R36). -/
theorem regAccess_eq_ok {offset width : Nat} {r : Reg} :
    regAccess offset width = .ok r ↔ width = 32 ∧ offset = r.offset := by
  constructor
  · intro h
    unfold regAccess at h
    split at h
    · cases h
    · split at h
      · cases h
      · next hw ho =>
        refine ⟨by omega, ?_⟩
        have hlt : offset / 4 < 9 := by
          by_contra hge
          obtain ⟨m, hm⟩ : ∃ m, offset / 4 = m + 9 := ⟨offset / 4 - 9, by omega⟩
          simp [hm, regNumbered?] at h
        have ho4 : offset = 4 * (offset / 4) := by omega
        generalize offset / 4 = n at h hlt ho4
        subst ho4
        match n, hlt with
        | 0, _ | 1, _ | 2, _ | 3, _ | 4, _ | 5, _ | 6, _ | 7, _ | 8, _ => cases h; rfl
  · rintro ⟨rfl, rfl⟩; cases r <;> rfl

/-- What a host access that answers a next state does (R36 to R39, R139). -/
theorem hostAccess_cases {a : HostAction} {s t : State} (h : hostAccess a s = .next t) :
    (∃ offset r, a = .regRead offset 32 ∧ offset = Reg.offset r ∧ t = s.reply (s.readReg r)) ∨
    (∃ offset r v, a = .regWrite offset 32 v ∧ offset = Reg.offset r ∧ t = s.writeReg r v) ∨
    (∃ i, a = .tromRead i ∧ i < tableLength ∧ s.cfg.rdy = true ∧ t = s.reply (s.tableAt i)) ∨
    (∃ i v, a = .tromWrite i v ∧ i < tableLength ∧ t = s) ∨
    (∃ i, a = .wmRead i ∧ i < s.sizes.wmWords ∧ t = s.reply (s.wmAt i)) ∨
    (∃ i v, a = .wmWrite i v ∧ i < s.sizes.wmWords ∧ t = s.writeWords i [v]) ∨
    (∃ b, a = .bmRead b ∧ b < s.sizes.bmBytes ∧ t = s.reply ((s.bmAt b).setWidth 32)) ∨
    (∃ b v, a = .bmWrite b v ∧ b < s.sizes.bmBytes ∧ t = s.writeBytes b [v]) ∨
    (a = .reset ∧ t = s.applyReset) := by
  cases a with
  | regRead offset width =>
    cases hr : regAccess offset width with
    | error e => simp [hostAccess, hr] at h
    | ok r =>
      obtain ⟨rfl, rfl⟩ := regAccess_eq_ok.mp hr
      simp only [hostAccess, hr] at h
      cases h
      exact .inl ⟨_, r, rfl, rfl, rfl⟩
  | regWrite offset width value =>
    cases hr : regAccess offset width with
    | error e => simp [hostAccess, hr] at h
    | ok r =>
      obtain ⟨rfl, rfl⟩ := regAccess_eq_ok.mp hr
      simp only [hostAccess, hr] at h
      cases h
      exact .inr (.inl ⟨_, r, value, rfl, rfl, rfl⟩)
  | tromRead i =>
    simp only [hostAccess] at h
    split at h
    · cases h
    · split at h <;> cases h; simp_all
  | tromWrite i v => simp only [hostAccess] at h; split at h <;> cases h; simp_all
  | wmRead i => simp only [hostAccess] at h; split at h <;> cases h; simp_all
  | wmWrite i v => simp only [hostAccess] at h; split at h <;> cases h; simp_all
  | bmRead b => simp only [hostAccess] at h; split at h <;> cases h; simp_all
  | bmWrite b v => simp only [hostAccess] at h; split at h <;> cases h; simp_all
  | reset => simp only [hostAccess] at h; cases h; simp

/-- An action carries a command word exactly when it is a 32-bit write at offset 0 (R19). -/
theorem commandWord?_eq_some {a : HostAction} {c : Word} : commandWord? a = some c ↔ a = .regWrite 0 32 c := by
  constructor
  · intro h
    cases a with
    | regWrite offset width value =>
      obtain ⟨⟨rfl, rfl⟩, hv⟩ := Option.ite_none_right_eq_some.mp h
      cases hv; rfl
    | _ => cases h
  · rintro rfl; rfl

/-- What a step that answers a next state does: nothing when no action is pending, a command, or a host access (R49). -/
theorem step_cases {s t : State} (h : step s = .next t) :
    (s.pending = [] ∧ t = s) ∨
    (∃ c rest i, s.pending = .regWrite 0 32 c :: rest ∧ decode c = .ok i ∧ exec i (s.withPending rest) = .next t) ∨
    (∃ c rest e, s.pending = .regWrite 0 32 c :: rest ∧ decode c = .error e ∧
      t = (s.withPending rest).raiseError .illegal) ∨
    (∃ a rest, s.pending = a :: rest ∧ commandWord? a = none ∧ hostAccess a (s.withPending rest) = .next t) := by
  unfold step at h
  split at h
  · next hp => cases h; exact .inl ⟨hp, rfl⟩
  · next a rest hp =>
    unfold perform at h
    split at h
    · next c hc =>
      obtain rfl := commandWord?_eq_some.mp hc
      unfold command at h
      split at h
      · next i hi => exact .inr (.inl ⟨c, rest, i, hp, hi, h⟩)
      · next e he => cases h; exact .inr (.inr (.inl ⟨c, rest, e, hp, he, rfl⟩))
    · next hc => exact .inr (.inr (.inr ⟨a, rest, hp, hc, h⟩))

end Sys2Proof.Machine
end

