-- ==== Sys2Proof/Laws/Memory.lean ====
section
/-! SUPPORT. The laws of the memories: reading after writing, and that every write keeps the canonical form. -/

namespace Sys2Proof.Machine

variable {α : Type}

/-- A read of the written address gives the written value. -/
@[simp] theorem Memory.entry?_write_self (m : Memory α) (a : Nat) (v : α) :
    Memory.entry? (Memory.write m a v) a = some v := by
  induction m with
  | nil => simp [Memory.write, Memory.entry?]
  | cons e m ih =>
    obtain ⟨b, w⟩ := e
    by_cases hlt : a < b
    · simp [Memory.write, Memory.entry?, hlt]
    · by_cases heq : a = b <;> simp [Memory.write, Memory.entry?, heq]
      simpa [Memory.entry?, heq, hlt] using ih

/-- A read of another address is unchanged by a write. -/
theorem Memory.entry?_write_ne (m : Memory α) {a a' : Nat} (v : α) (h : a' ≠ a) :
    Memory.entry? (Memory.write m a v) a' = Memory.entry? m a' := by
  induction m with
  | nil => simp [Memory.write, Memory.entry?, h]
  | cons e m ih =>
    obtain ⟨b, w⟩ := e
    by_cases hlt : a < b
    · simp [Memory.write, Memory.entry?, hlt, h]
    · by_cases heq : a = b
      · subst heq; simp [Memory.write, Memory.entry?, h]
      · simp [Memory.write, Memory.entry?, heq, hlt, ih]

/-- A read outside the written sequence is unchanged. -/
theorem Memory.entry?_writeSeq_outside (vs : List α) (m : Memory α) (a a' : Nat)
    (h : ¬ (a ≤ a' ∧ a' < a + vs.length)) :
    Memory.entry? (Memory.writeSeq m a vs) a' = Memory.entry? m a' := by
  induction vs generalizing m a with
  | nil => rfl
  | cons v vs ih =>
    rw [List.length_cons] at h
    rw [Memory.writeSeq, ih _ _ (by omega), Memory.entry?_write_ne _ _ (by omega)]

/-- A read inside the written sequence gives its element. -/
theorem Memory.entry?_writeSeq_inside (vs : List α) (m : Memory α) (a j : Nat) (h : j < vs.length) :
    Memory.entry? (Memory.writeSeq m a vs) (a + j) = vs[j]? := by
  induction vs generalizing m a j with
  | nil => simp at h
  | cons v vs ih =>
    cases j with
    | zero => rw [Memory.writeSeq, Memory.entry?_writeSeq_outside _ _ _ _ (by omega)]; simp
    | succ j =>
      rw [Memory.writeSeq, show a + (j + 1) = a + 1 + j by omega, ih _ _ _ (by simpa using h)]
      simp

/-- The head of a memory in canonical form lies below everything after it, and the rest is in canonical form. -/
theorem Memory.wf_cons {e : Nat × α} {m : Memory α} :
    Memory.wf (e :: m) = true ↔ (∀ f ∈ m.head?, e.1 < f.1) ∧ Memory.wf m = true := by
  cases m with
  | nil => simp [Memory.wf]
  | cons f m => simp [Memory.wf]

/-- The first address after a write is the written one or the former first one. -/
theorem Memory.head?_write (m : Memory α) (a : Nat) (v : α) {e : Nat × α}
    (h : e ∈ (Memory.write m a v).head?) : e.1 = a ∨ ∃ f ∈ m.head?, e.1 = f.1 := by
  cases m with
  | nil => simp [Memory.write] at h; simp [← h]
  | cons f m =>
    obtain ⟨b, w⟩ := f
    unfold Memory.write at h
    split at h
    · simp at h; simp [← h]
    · split at h
      · simp at h; simp [← h]
      · simp at h; right; simp [← h]

/-- A write keeps the canonical form. -/
theorem Memory.wf_write (m : Memory α) (a : Nat) (v : α) (h : Memory.wf m = true) :
    Memory.wf (Memory.write m a v) = true := by
  induction m with
  | nil => rfl
  | cons e m ih =>
    obtain ⟨b, w⟩ := e
    obtain ⟨hhd, hm⟩ := Memory.wf_cons.mp h
    unfold Memory.write
    split
    · next hlt => simpa [Memory.wf, hlt] using h
    · split
      · next heq => subst heq; exact Memory.wf_cons.mpr ⟨hhd, hm⟩
      · next hlt hne =>
        refine Memory.wf_cons.mpr ⟨fun f hf => ?_, ih hm⟩
        rcases Memory.head?_write m a v hf with ha | ⟨g, hg, hfg⟩
        · simp only [ha]; omega
        · simp only [hfg]; exact hhd g hg

/-- A sequence of writes keeps the canonical form. -/
theorem Memory.wf_writeSeq (vs : List α) (m : Memory α) (a : Nat) (h : Memory.wf m = true) :
    Memory.wf (Memory.writeSeq m a vs) = true := by
  induction vs generalizing m a with
  | nil => exact h
  | cons v vs ih => exact ih _ _ (Memory.wf_write m a v h)

/-- A write inside the memory keeps every listed address inside it. -/
theorem Memory.within_write (m : Memory α) (a n : Nat) (v : α) (h : Memory.within m n = true) (ha : a < n) :
    Memory.within (Memory.write m a v) n = true := by
  induction m with
  | nil => simpa [Memory.write, Memory.within] using ha
  | cons e m ih =>
    obtain ⟨b, w⟩ := e
    simp only [Memory.within, List.all_cons, Bool.and_eq_true, decide_eq_true_eq] at h ih
    unfold Memory.write
    split
    · simpa [Memory.within, ha] using h
    · split
      · simpa [Memory.within, ha] using h.2
      · simpa [Memory.within] using ⟨h.1, by simpa [Memory.within] using ih h.2⟩

/-- A sequence of writes inside the memory keeps every listed address inside it. -/
theorem Memory.within_writeSeq (vs : List α) (m : Memory α) (a n : Nat) (h : Memory.within m n = true)
    (ha : a + vs.length ≤ n) : Memory.within (Memory.writeSeq m a vs) n = true := by
  induction vs generalizing m a with
  | nil => exact h
  | cons v vs ih =>
    rw [List.length_cons] at ha
    exact ih _ _ (Memory.within_write m a n v h (by omega)) (by omega)

/-- Reading a sequence gives as many elements as were asked for. -/
@[simp] theorem State.length_readWords (s : State) (a n : Nat) : (s.readWords a n).length = n := by
  simp [State.readWords]

@[simp] theorem State.length_readBytes (s : State) (a n : Nat) : (s.readBytes a n).length = n := by
  simp [State.readBytes]

/-- The memories of the reset state are in canonical form (10_state.md R34). -/
theorem State.reset_memories_wf : Memory.wf State.reset.wm = true ∧ Memory.wf State.reset.bm = true := ⟨rfl, rfl⟩

end Sys2Proof.Machine
end

