-- ==== Sys2Proof/Laws/Commands.lean ====
section
/-! SUPPORT. What each shared operation can do, said once: if it answers a next state, that state is one of these. -/

namespace Sys2Proof.Machine

/-- INIT (R74): STATE on a configured core, otherwise the context is built. -/
theorem execInit_cases {e : Endian} {s t : State} (h : execInit e s = .next t) :
    (s.cfg.rdy = true ∧ t = s.raiseError .state) ∨
    (s.cfg.rdy = false ∧ t = (s.install buildTable e).complete false) := by
  unfold execInit at h
  split at h <;> cases h <;> simp_all

/-- The kinds a raw KIND field selects are the numbers 0 to 3 (R55). -/
theorem hashKind?_eq_some {n : Nat} {k : HashKind} : hashKind? n = some k ↔ n = k.value := by
  constructor
  · intro h
    match n, h with
    | 0, h => cases h; rfl
    | 1, h => cases h; rfl
    | 2, h => cases h; rfl
    | 3, h => cases h; rfl
  · rintro rfl; cases k <;> rfl

/-- No kind is selected exactly above 3 (R82). -/
theorem hashKind?_eq_none {n : Nat} : hashKind? n = none ↔ 3 < n := by
  match n with
  | 0 => decide
  | 1 => decide
  | 2 => decide
  | 3 => decide
  | n + 4 => simp [hashKind?]

/-- HASH (R81): one of the three errors, each with its condition, or the hash in RES. -/
theorem execHash_cases {kind : Nat} {absent : Bool} {s t : State} (h : execHash kind absent s = .next t) :
    (s.cfg.rdy = false ∧ t = s.raiseError .state) ∨
    (s.cfg.rdy = true ∧ (3 < kind ∨ absent = true) ∧ t = s.raiseError .invalidArgument) ∨
    (s.cfg.rdy = true ∧ kind ≤ 3 ∧ absent = false ∧ s.bmSrcFits = false ∧ t = s.raiseError .range) ∨
    (∃ k : HashKind, s.cfg.rdy = true ∧ kind = k.value ∧ absent = false ∧ s.bmSrcFits = true ∧
      t = (s.writeRes (hashBytes s.tableAt k s.inputBytes)).complete false) := by
  unfold execHash at h
  split at h
  · cases h; simp_all
  · split at h
    · next hk => cases h; simp_all [hashKind?_eq_none]
    · next k hk =>
      obtain rfl := hashKind?_eq_some.mp hk
      have : k.value ≤ 3 := by cases k <;> decide
      split at h
      · cases h; simp_all
      · split at h <;> cases h
        · simp_all
        · exact .inr (.inr (.inr ⟨k, by simp_all⟩))

/-- ENCW and DECW (R94, R95). -/
theorem wordCommand_cases {dir : Direction} {absent : Bool} {s t : State} (h : wordCommand dir absent s = .next t) :
    (s.cfg.rdy = false ∧ t = s.raiseError .state) ∨
    (s.cfg.rdy = true ∧ absent = true ∧ t = s.complete true) ∨
    (s.cfg.rdy = true ∧ absent = false ∧ (s.wmSrcFits && s.wmDstFits) = false ∧ t = s.raiseError .range) ∨
    (s.cfg.rdy = true ∧ absent = false ∧ (s.wmSrcFits && s.wmDstFits) = true ∧
      t = (s.writeWords s.dst.toNat (cryptWords s.tableAt dir s.inputWords s.key)).complete false) := by
  unfold wordCommand at h
  split at h
  · cases h; simp_all
  · next hr =>
    split at h
    · cases h; simp_all
    · next ha =>
      split at h <;> cases h
      · next hf => exact .inr (.inr (.inl ⟨by simpa using hr, by simpa using ha, (Bool.not_eq_true' _).mp hf, rfl⟩))
      · next hf => exact .inr (.inr (.inr ⟨by simpa using hr, by simpa using ha, by simpa using hf, rfl⟩))

/-- ENC1 and DEC1 (R96, R97). -/
theorem singleCommand_cases {dir : Direction} {s t : State} (h : singleCommand dir s = .next t) :
    (s.cfg.rdy = false ∧ t = s.raiseError .state) ∨
    (s.cfg.rdy = true ∧ t = (s.writeRes (cryptWord s.tableAt dir s.val s.key)).complete false) := by
  unfold singleCommand at h
  split at h <;> cases h <;> simp_all

/-- ENCB and DECB (R112, R113). -/
theorem byteCommand_cases {dir : Direction} {absent : Bool} {s t : State} (h : byteCommand dir absent s = .next t) :
    (s.cfg.rdy = false ∧ t = s.raiseError .state) ∨
    (s.cfg.rdy = true ∧ absent = true ∧ t = s.complete true) ∨
    (s.cfg.rdy = true ∧ absent = false ∧ (s.bmSrcFits && s.bmDstFits) = false ∧ t = s.raiseError .range) ∨
    (s.cfg.rdy = true ∧ absent = false ∧ (s.bmSrcFits && s.bmDstFits) = true ∧
      t = (s.writeBytes s.dst.toNat (s.outputBytes dir)).complete false) := by
  unfold byteCommand at h
  split at h
  · cases h; simp_all
  · next hr =>
    split at h
    · cases h; simp_all
    · next ha =>
      split at h <;> cases h
      · next hf => exact .inr (.inr (.inl ⟨by simpa using hr, by simpa using ha, (Bool.not_eq_true' _).mp hf, rfl⟩))
      · next hf => exact .inr (.inr (.inr ⟨by simpa using hr, by simpa using ha, by simpa using hf, rfl⟩))

/-- ENCBUF and DECBUF (R114, R115). -/
theorem bufferCommand_cases {dir : Direction} {absent : Bool} {s t : State}
    (h : bufferCommand dir absent s = .next t) :
    (s.cfg.rdy = false ∧ t = s.raiseError .state) ∨
    (s.cfg.rdy = true ∧ absent = true ∧ t = s.complete true) ∨
    (s.cfg.rdy = true ∧ absent = false ∧ s.bmSrcFits = false ∧ t = s.raiseError .range) ∨
    (s.cfg.rdy = true ∧ absent = false ∧ s.bmSrcFits = true ∧
      t = (s.writeBytes s.src.toNat (s.outputBytes dir)).complete false) := by
  unfold bufferCommand at h
  split at h
  · cases h; simp_all
  · next hr =>
    split at h
    · cases h; simp_all
    · next ha =>
      split at h <;> cases h
      · next hf => exact .inr (.inr (.inl ⟨by simpa using hr, by simpa using ha, (Bool.not_eq_true' _).mp hf, rfl⟩))
      · next hf => exact .inr (.inr (.inr ⟨by simpa using hr, by simpa using ha, by simpa using hf, rfl⟩))

/-- The range check in numbers (R48). -/
@[simp] theorem inRange_eq_true {a n size : Nat} : inRange a n size = true ↔ a + n ≤ size := by
  simp [inRange]

@[simp] theorem inRange_eq_false {a n size : Nat} : inRange a n size = false ↔ size < a + n := by
  simp [inRange]

@[simp] theorem State.length_inputWords (s : State) : s.inputWords.length = s.len.toNat := by
  simp [State.inputWords]

@[simp] theorem State.length_inputBytes (s : State) : s.inputBytes.length = s.len.toNat := by
  simp [State.inputBytes]

/-- The element of WM after a sequence of writes, inside the sequence. -/
theorem State.wmAt_writeWords_inside (s : State) (a j : Nat) (ws : List Word) (h : j < ws.length) :
    (s.writeWords a ws).wmAt (a + j) = ws[j] := by
  simp [State.wmAt, Memory.entry?_writeSeq_inside ws s.wm a j h, h]

/-- The element of WM after a sequence of writes, outside the sequence. -/
theorem State.wmAt_writeWords_outside (s : State) (a b : Nat) (ws : List Word) (h : ¬ (a ≤ b ∧ b < a + ws.length)) :
    (s.writeWords a ws).wmAt b = s.wmAt b := by
  simp [State.wmAt, Memory.entry?_writeSeq_outside ws s.wm a b h]

/-- The byte of BM after a sequence of writes, inside the sequence. -/
theorem State.bmAt_writeBytes_inside (s : State) (a j : Nat) (bs : List Byte) (h : j < bs.length) :
    (s.writeBytes a bs).bmAt (a + j) = bs[j] := by
  simp [State.bmAt, Memory.entry?_writeSeq_inside bs s.bm a j h, h]

/-- The byte of BM after a sequence of writes, outside the sequence. -/
theorem State.bmAt_writeBytes_outside (s : State) (a b : Nat) (bs : List Byte) (h : ¬ (a ≤ b ∧ b < a + bs.length)) :
    (s.writeBytes a bs).bmAt b = s.bmAt b := by
  simp [State.bmAt, Memory.entry?_writeSeq_outside bs s.bm a b h]

end Sys2Proof.Machine
end

