-- ==== Sys2Proof/Laws/Exec.lean ====
section
/-! SUPPORT. What any command can do, said once, from the cases of the shared operations; and the equations of the cipher
and of the codec, one for each way they can go. -/

namespace Sys2Proof.Machine

/-- A command that answers a next state raises an error or has its own effect. -/
theorem exec_cases {i : Instr} {s t : State} (hx : exec i s = .next t) :
    (∃ e, e ≠ .ok ∧ t = s.raiseError e) ∨
    (∃ e, i = .init e ∧ s.cfg.rdy = false ∧ t = (s.install buildTable e).complete false) ∨
    (∃ k : HashKind, i = .hash k.value false ∧ s.cfg.rdy = true ∧ s.bmSrcFits = true ∧
      t = (s.writeRes (hashBytes s.tableAt k s.inputBytes)).complete false) ∨
    (∃ dir, (i = .enc1 ∧ dir = .encrypt ∨ i = .dec1 ∧ dir = .decrypt) ∧ s.cfg.rdy = true ∧
      t = (s.writeRes (cryptWord s.tableAt dir s.val s.key)).complete false) ∨
    ((i = .encw true ∨ i = .decw true ∨ i = .encb true ∨ i = .decb true ∨ i = .encbuf true ∨ i = .decbuf true) ∧
      s.cfg.rdy = true ∧ t = s.complete true) ∨
    (∃ dir, (i = .encw false ∧ dir = .encrypt ∨ i = .decw false ∧ dir = .decrypt) ∧ s.cfg.rdy = true ∧
      (s.wmSrcFits && s.wmDstFits) = true ∧
      t = (s.writeWords s.dst.toNat (cryptWords s.tableAt dir s.inputWords s.key)).complete false) ∨
    (∃ dir, (i = .encb false ∧ dir = .encrypt ∨ i = .decb false ∧ dir = .decrypt) ∧ s.cfg.rdy = true ∧
      (s.bmSrcFits && s.bmDstFits) = true ∧
      t = (s.writeBytes s.dst.toNat (s.outputBytes dir)).complete false) ∨
    (∃ dir, (i = .encbuf false ∧ dir = .encrypt ∨ i = .decbuf false ∧ dir = .decrypt) ∧ s.cfg.rdy = true ∧
      s.bmSrcFits = true ∧
      t = (s.writeBytes s.src.toNat (s.outputBytes dir)).complete false) := by
  cases i with
  | init e =>
    rcases execInit_cases hx with ⟨_, h⟩ | ⟨hr, h⟩
    · exact .inl ⟨_, by decide, h⟩
    · exact .inr (.inl ⟨e, rfl, hr, h⟩)
  | hash kind absent =>
    rcases execHash_cases hx with ⟨_, h⟩ | ⟨_, _, h⟩ | ⟨_, _, _, _, h⟩ | ⟨k, hr, hk, ha, hf, h⟩
    · exact .inl ⟨_, by decide, h⟩
    · exact .inl ⟨_, by decide, h⟩
    · exact .inl ⟨_, by decide, h⟩
    · subst hk; subst ha; exact .inr (.inr (.inl ⟨k, rfl, hr, hf, h⟩))
  | enc1 =>
    rcases singleCommand_cases hx with ⟨_, h⟩ | ⟨hr, h⟩
    · exact .inl ⟨_, by decide, h⟩
    · exact .inr (.inr (.inr (.inl ⟨.encrypt, .inl ⟨rfl, rfl⟩, hr, h⟩)))
  | dec1 =>
    rcases singleCommand_cases hx with ⟨_, h⟩ | ⟨hr, h⟩
    · exact .inl ⟨_, by decide, h⟩
    · exact .inr (.inr (.inr (.inl ⟨.decrypt, .inr ⟨rfl, rfl⟩, hr, h⟩)))
  | encw absent =>
    rcases wordCommand_cases hx with ⟨_, h⟩ | ⟨hr, ha, h⟩ | ⟨_, _, _, h⟩ | ⟨hr, ha, hf, h⟩
    · exact .inl ⟨_, by decide, h⟩
    · subst ha; exact .inr (.inr (.inr (.inr (.inl ⟨by simp, hr, h⟩))))
    · exact .inl ⟨_, by decide, h⟩
    · subst ha; exact .inr (.inr (.inr (.inr (.inr (.inl ⟨.encrypt, .inl ⟨rfl, rfl⟩, hr, hf, h⟩)))))
  | decw absent =>
    rcases wordCommand_cases hx with ⟨_, h⟩ | ⟨hr, ha, h⟩ | ⟨_, _, _, h⟩ | ⟨hr, ha, hf, h⟩
    · exact .inl ⟨_, by decide, h⟩
    · subst ha; exact .inr (.inr (.inr (.inr (.inl ⟨by simp, hr, h⟩))))
    · exact .inl ⟨_, by decide, h⟩
    · subst ha; exact .inr (.inr (.inr (.inr (.inr (.inl ⟨.decrypt, .inr ⟨rfl, rfl⟩, hr, hf, h⟩)))))
  | encb absent =>
    rcases byteCommand_cases hx with ⟨_, h⟩ | ⟨hr, ha, h⟩ | ⟨_, _, _, h⟩ | ⟨hr, ha, hf, h⟩
    · exact .inl ⟨_, by decide, h⟩
    · subst ha; exact .inr (.inr (.inr (.inr (.inl ⟨by simp, hr, h⟩))))
    · exact .inl ⟨_, by decide, h⟩
    · subst ha; exact .inr (.inr (.inr (.inr (.inr (.inr (.inl ⟨.encrypt, .inl ⟨rfl, rfl⟩, hr, hf, h⟩))))))
  | decb absent =>
    rcases byteCommand_cases hx with ⟨_, h⟩ | ⟨hr, ha, h⟩ | ⟨_, _, _, h⟩ | ⟨hr, ha, hf, h⟩
    · exact .inl ⟨_, by decide, h⟩
    · subst ha; exact .inr (.inr (.inr (.inr (.inl ⟨by simp, hr, h⟩))))
    · exact .inl ⟨_, by decide, h⟩
    · subst ha; exact .inr (.inr (.inr (.inr (.inr (.inr (.inl ⟨.decrypt, .inr ⟨rfl, rfl⟩, hr, hf, h⟩))))))
  | encbuf absent =>
    rcases bufferCommand_cases hx with ⟨_, h⟩ | ⟨hr, ha, h⟩ | ⟨_, _, _, h⟩ | ⟨hr, ha, hf, h⟩
    · exact .inl ⟨_, by decide, h⟩
    · subst ha; exact .inr (.inr (.inr (.inr (.inl ⟨by simp, hr, h⟩))))
    · exact .inl ⟨_, by decide, h⟩
    · subst ha; exact .inr (.inr (.inr (.inr (.inr (.inr (.inr ⟨.encrypt, .inl ⟨rfl, rfl⟩, hr, hf, h⟩))))))
  | decbuf absent =>
    rcases bufferCommand_cases hx with ⟨_, h⟩ | ⟨hr, ha, h⟩ | ⟨_, _, _, h⟩ | ⟨hr, ha, hf, h⟩
    · exact .inl ⟨_, by decide, h⟩
    · subst ha; exact .inr (.inr (.inr (.inr (.inl ⟨by simp, hr, h⟩))))
    · exact .inl ⟨_, by decide, h⟩
    · subst ha; exact .inr (.inr (.inr (.inr (.inr (.inr (.inr ⟨.decrypt, .inr ⟨rfl, rfl⟩, hr, hf, h⟩))))))

/-! ### The cipher, step by step (R89) -/

@[simp] theorem cipherStep_out (T : Nat → Word) (dir : Direction) (c : CipherState) (w : Word) :
    (cipherStep T dir c w).1 = w ^^^ (c.key + (c.seed + T (lookupIndex c.key))) := rfl

@[simp] theorem cipherStep_key (T : Nat → Word) (dir : Direction) (c : CipherState) (w : Word) :
    (cipherStep T dir c w).2.key = nextKey c.key := rfl

/-- The next seed when encrypting: the plaintext is the input (R92). -/
theorem cipherStep_seed_encrypt (T : Nat → Word) (c : CipherState) (w : Word) :
    (cipherStep T .encrypt c w).2.seed =
      w + (c.seed + T (lookupIndex c.key)) + ((c.seed + T (lookupIndex c.key)) <<< 5) + 3 := rfl

/-- The next seed when decrypting: the plaintext is the output (R92). -/
theorem cipherStep_seed_decrypt (T : Nat → Word) (c : CipherState) (w : Word) :
    (cipherStep T .decrypt c w).2.seed =
      (cipherStep T .decrypt c w).1 + (c.seed + T (lookupIndex c.key)) +
        ((c.seed + T (lookupIndex c.key)) <<< 5) + 3 := rfl

@[simp] theorem cipherWords_nil (T : Nat → Word) (dir : Direction) (c : CipherState) :
    cipherWords T dir c [] = [] := rfl

@[simp] theorem cipherWords_cons (T : Nat → Word) (dir : Direction) (c : CipherState) (w : Word) (ws : List Word) :
    cipherWords T dir c (w :: ws) =
      (cipherStep T dir c w).1 :: cipherWords T dir (cipherStep T dir c w).2 ws := rfl

/-- The two steps share their output word whatever the direction (R100). -/
theorem cipherStep_out_eq (T : Nat → Word) (dir dir' : Direction) (c : CipherState) (w : Word) :
    (cipherStep T dir c w).1 = (cipherStep T dir' c w).1 := rfl

/-! ### The codec (R103, R105) -/

@[simp] theorem groupWords_nil (e : Endian) : groupWords e [] = [] := rfl

@[simp] theorem groupWords_cons (e : Endian) (b0 b1 b2 b3 : Byte) (rest : List Byte) :
    groupWords e (b0 :: b1 :: b2 :: b3 :: rest) = bytesToWord e b0 b1 b2 b3 :: groupWords e rest := rfl

/-- The two regions are the whole input (R103). -/
theorem wholeWords_append_remainder (src : List Byte) : wholeWords src ++ remainder src = src := by
  simp [wholeWords, remainder]

/-- The remainder has at most 3 bytes (R103). -/
theorem length_remainder_lt (src : List Byte) : (remainder src).length < 4 := by
  simp [remainder]; omega

/-- The whole-word region is a whole number of groups (R103). -/
theorem length_wholeWords (src : List Byte) : (wholeWords src).length = 4 * (src.length / 4) := by
  simp [wholeWords]; omega

@[simp] theorem length_wordToBytes (w : Word) : (wordToBytes w).length = 4 := rfl

/-! ### The hash (R79) -/

@[simp] theorem hashStep_seed1 (T : Nat → Word) (k : HashKind) (acc : HashAcc) (b : Byte) :
    (hashStep T k acc b).seed1 = T (k.regionBase + (foldUpper b).toNat) ^^^ (acc.seed1 + acc.seed2) := rfl

@[simp] theorem hashStep_seed2 (T : Nat → Word) (k : HashKind) (acc : HashAcc) (b : Byte) :
    (hashStep T k acc b).seed2 =
      (foldUpper b).setWidth 32 + (hashStep T k acc b).seed1 + acc.seed2 + (acc.seed2 <<< 5) + 3 := rfl

/-- A region of the table starts at one of 0, 256, 512, 768 (R61). -/
theorem HashKind.regionBase_le (k : HashKind) : k.regionBase ≤ 768 := by cases k <;> decide

end Sys2Proof.Machine
end

