-- ==== Sys2Proof/Laws/PerInstr.lean ====
section
/-! SUPPORT. Statements about every command as a term, one lemma for each constructor. -/

namespace Sys2Proof

/-- The row of the opcode map a command belongs to (30_encoding.md R59). -/
def Instr.op : Instr → Op
  | .init _ => .init
  | .hash _ _ => .hash
  | .enc1 => .enc1
  | .dec1 => .dec1
  | .encw _ => .encw
  | .decw _ => .decw
  | .encb _ => .encb
  | .decb _ => .decb
  | .encbuf _ => .encbuf
  | .decbuf _ => .decbuf

end Sys2Proof

namespace Sys2Proof.Laws.SelectsItsRow

/-- The encoded word of a command selects the row of its own mnemonic and no other (R59). -/
def Statement (i : Instr) : Prop := ∀ r ∈ opcodeRows, r.selects (encode i) = true ↔ r.op = i.op

theorem init (endian : Endian) : Statement (.init endian) := by
  unfold Statement; cases endian <;> decide

/-- A word of HASH selects a row only through its OP field, whatever KIND is. -/
theorem hash (kind : Nat) (absent : Bool) : Statement (.hash kind absent) := by
  have h : ∀ (k : BitVec 8) (a : Bool), ∀ r ∈ opcodeRows,
      (r.selects (packCommand 0x2 k .little a) = true ↔ r.op = Op.hash) := by decide +kernel
  exact h (BitVec.ofNat 8 kind) absent

theorem enc1 : Statement .enc1 := by unfold Statement; decide

theorem dec1 : Statement .dec1 := by unfold Statement; decide

theorem encw (absent : Bool) : Statement (.encw absent) := by
  unfold Statement; cases absent <;> decide

theorem decw (absent : Bool) : Statement (.decw absent) := by
  unfold Statement; cases absent <;> decide

theorem encb (absent : Bool) : Statement (.encb absent) := by
  unfold Statement; cases absent <;> decide

theorem decb (absent : Bool) : Statement (.decb absent) := by
  unfold Statement; cases absent <;> decide

theorem encbuf (absent : Bool) : Statement (.encbuf absent) := by
  unfold Statement; cases absent <;> decide

theorem decbuf (absent : Bool) : Statement (.decbuf absent) := by
  unfold Statement; cases absent <;> decide

end Sys2Proof.Laws.SelectsItsRow
end

