-- ==== Sys2Proof/Machine/Assembler.lean ====
section
/-! DEFINITION. The spec's notation for host programs (30_encoding.md R66) and its pseudo-instructions (R67): one line is a
sequence of host actions. -/

namespace Sys2Proof.Machine

/-- A line of a host program (R66). -/
inductive AsmLine where
  /-- `WR reg, value` -/
  | wr (reg : Reg) (value : Word)
  /-- `RD reg` -/
  | rd (reg : Reg)
  /-- `WRB addr, b0 b1 ...` -/
  | wrb (address : Nat) (bytes : List Byte)
  /-- `WRW idx, w0 w1 ...` -/
  | wrw (index : Nat) (words : List Word)
  /-- `RDB addr, n` -/
  | rdb (address count : Nat)
  /-- `RDW idx, n` -/
  | rdw (index count : Nat)
  /-- `RDT idx` -/
  | rdt (index : Nat)
  /-- A command line: INIT, HASH, ENC1, ... -/
  | cmd (i : Instr)
  /-- `INIT` without operand, which is `INIT LE` (R67) -/
  | initDefault
  /-- `HASHI kind`, which is `HASH kind` (R67, R86) -/
  | hashi (kind : Nat)
  /-- `RAW word` -/
  | raw (word : Word)
  /-- `RESET` -/
  | reset
  deriving DecidableEq, Repr

/-- `WR CMD, word` (R66). -/
def writeCmd (w : Word) : HostAction := .regWrite Reg.cmd.offset 32 w

/-- The host actions of a line (R66, R67). -/
def AsmLine.actions : AsmLine → List HostAction
  | .wr reg value => [.regWrite reg.offset 32 value]
  | .rd reg => [.regRead reg.offset 32]
  | .wrb address bytes => bytes.mapIdx fun j b => .bmWrite (address + j) b
  | .wrw index words => words.mapIdx fun j w => .wmWrite (index + j) w
  | .rdb address count => (List.range count).map fun j => .bmRead (address + j)
  | .rdw index count => (List.range count).map fun j => .wmRead (index + j)
  | .rdt index => [.tromRead index]
  | .cmd i => [writeCmd (encode i)]
  | .initDefault => [writeCmd (encode (.init .little))]
  | .hashi kind => [writeCmd (encode (.hash kind false))]
  | .raw word => [writeCmd word]
  | .reset => [.reset]

/-- The host is about to perform a program (R66). -/
def State.withProgram (s : State) (lines : List AsmLine) : State :=
  s.withPending (lines.flatMap AsmLine.actions)

end Sys2Proof.Machine
end

