-- ==== Sys2Proof/Tests/Slice0.lean ====
section
/-! SUPPORT. The model's own tests. Every expected value is the spec's (95_test_vectors.md, or the worked example of the rule
named), never the model's answer. The theorems `witness_<Name>` show that the hypotheses of `Obligations.<Name>` can be
met, one for each clause that has some. -/

namespace Sys2Proof.Tests

open Sys2Proof Sys2Proof.Machine

/-! ### Helpers -/

/-- A core after INIT. -/
def ready (e : Endian) : State := { State.reset with cfg := ⟨e, true⟩, table := buildTable }

/-- A core after INIT with operands in its registers. -/
def loaded (e : Endian) (key val src dst len : Word) : State :=
  { ready e with key := key, val := val, src := src, dst := dst, len := len }

/-- The host is about to write a word to CMD. -/
def about (s : State) (c : Word) : State := { s with pending := [.regWrite 0x00 32 c] }

/-- A part of the next state, if there is one. -/
def after {α : Type} (o : Host.Outcome State Fault Refusal) (f : State → α) : Option α :=
  match o with
  | .next t => some (f t)
  | .fault _ => none
  | .refused _ => none

/-- The host's action is refused, by the given name. -/
def refusedWith (r : Refusal) (o : Host.Outcome State Fault Refusal) : Bool :=
  match o with
  | .next _ => false
  | .fault _ => false
  | .refused q => q == r

/-- Bytes stored from an address on. -/
def stored {α : Type} (a : Nat) (xs : List α) : Memory α := Memory.writeSeq [] a xs

/-! ### Well-formedness: KIND is an 8-bit field (R53, R55) -/

theorem test_kind_256_is_ill_formed : (Instr.hash 256 false).wellFormed = false := by decide
theorem test_kind_255_is_well_formed : (Instr.hash 255 true).wellFormed = true := by decide

/-! ### Decoding: words written out from R53 and R59, bit fields from 31 down to 0; and section 2.5 -/

theorem test_decode_init_little : decode 0b00000000000000_0_0_00000000_0000_0001#32 = .ok (.init .little) := by decide
theorem test_decode_init_big : decode 0b00000000000000_0_1_00000000_0000_0001#32 = .ok (.init .big) := by decide
theorem test_decode_hash : decode 0b00000000000000_0_0_00000011_0000_0010#32 = .ok (.hash 3 false) := by decide
theorem test_decode_hash_absent : decode 0b00000000000000_1_0_11111111_0000_0010#32 = .ok (.hash 255 true) := by decide
theorem test_decode_enc1 : decode 0b00000000000000_0_0_00000000_0000_0100#32 = .ok .enc1 := by decide
theorem test_decode_dec1 : decode 0b00000000000000_0_0_00000000_0000_0101#32 = .ok .dec1 := by decide
theorem test_decode_encw : decode 0b00000000000000_1_0_00000000_0000_0110#32 = .ok (.encw true) := by decide
theorem test_decode_decw : decode 0b00000000000000_0_0_00000000_0000_0111#32 = .ok (.decw false) := by decide
theorem test_decode_encb : decode 0b00000000000000_0_0_00000000_0000_1000#32 = .ok (.encb false) := by decide
theorem test_decode_decb : decode 0b00000000000000_1_0_00000000_0000_1001#32 = .ok (.decb true) := by decide
theorem test_decode_encbuf : decode 0b00000000000000_0_0_00000000_0000_1010#32 = .ok (.encbuf false) := by decide
theorem test_decode_decbuf : decode 0b00000000000000_1_0_00000000_0000_1011#32 = .ok (.decbuf true) := by decide

theorem test_decode_unknown_opcodes :
    [0x00000000, 0x00000003, 0x0000000C, 0x0000000D, 0x0000000E, 0x0000000F, 0xFFFFFFFF].map decode =
      List.replicate 7 (.error .unknownOpcode) := by decide

theorem test_decode_reserved_bits :
    [0x00000011, 0x00000016, 0x80000006, 0x00040006, 0x00010011].map decode =
      List.replicate 5 (.error .reservedBit) := by decide

theorem test_decode_unused_fields :
    [0x00020001, 0x00010002, 0x00020004, 0x00000104, 0x00010006].map decode =
      List.replicate 5 (.error .unusedField) := by decide

theorem test_decode_table_word : decodeTableWord 32 0x00000402 = some (.hash 4 false) := by decide
theorem test_decode_table_word_illegal : decodeTableWord 32 0x00000003 = none := by decide

/-! ### The table (section 2.1) -/

theorem test_table_has_1280_entries : buildTable.length = 1280 := by decide +kernel

/-- The exclusive or and the sum of all entries (section 2.1). -/
theorem test_table_check_values :
    (buildTable.foldl (fun acc e => (acc.1 ^^^ e.2, acc.2 + e.2)) ((0, 0) : Word × Word)) =
      (0xABA9DA12, 0x5EE021AE) := by decide +kernel

/-! ### INIT (R74) -/

theorem test_init_big :
    after (step (about State.reset 0x00010001))
      (fun t => (t.cfg.word, t.status.word, t.tableAt 0, t.tableAt 1, t.tableAt 0x400, t.tableAt 1279)) =
      some (0x00000003, 0x00000000, 0x55C636E2, 0x02BE0170, 0x193AA698, 0x7303286C) := by decide +kernel

theorem test_init_twice :
    after (step (about (ready .big) 0x00000001)) (fun t => (t.status.word, t.cfg.word)) =
      some (0x00000024, 0x00000003) := by decide

/-! ### HASH (H4, H16, and the error vectors of section 2.2) -/

theorem test_hash_foo :
    after (exec (.hash 1 false) { loaded .little 0 0 0 0 3 with bm := stored 0 [0x66, 0x6F, 0x6F] })
      (fun t => (t.res, t.status.word)) = some (0x63FA8F9F, 0) := by decide +kernel

theorem test_hash_bad_kind_before_range :
    after (step (about (loaded .little 0 0 0xFFFFFFFF 0 9) 0x00000402)) (fun t => (t.status.word, t.res)) =
      some (0x00000021, 0) := by decide

/-- H16: the four bytes just outside the letter ranges are not folded. -/
theorem test_fold_boundaries : [0x40, 0x5B, 0x60, 0x7B, 0xE9].map foldUpper = [0x40, 0x5B, 0x60, 0x7B, 0xE9] := by decide

/-! ### ENC1 and DEC1 (W8) -/

theorem test_enc1 :
    after (exec .enc1 (loaded .little 0x00001234 0xDEADBEEF 0 0 0)) (fun t => (t.res, t.status.word)) =
      some (0x2A38A680, 0) := by decide +kernel

theorem test_dec1 :
    after (exec .dec1 (loaded .little 0x000000FF 0x80000000 0 0 0)) (fun t => (t.res, t.key)) =
      some (0xE1F21859, 0x000000FF) := by decide +kernel

/-! ### ENCW and DECW (W3, W7, W11, and the key schedule of section 2.3) -/

theorem test_next_key :
    [0x00000000, 0x00000001, 0x000007FF, 0x00000800, 0xFFFFFFFF, 0xC3AF3770, 0x10F11111].map nextKey =
      [0x10F11111, 0x10D11111, 0x11111111, 0x10F11111, 0x111FFFFF, 0x22F975F7, 0xEED31F33] := by decide +kernel

/-- W3, with the output overlapping the input. -/
theorem test_encw_overlapping :
    after (exec (.encw false) { loaded .little 0xC3AF3770 0 0 2 4 with
        wm := stored 0 [0x00000000, 0x00000001, 0xFFFFFFFF, 0x12345678] }) (fun t => t.wm) =
      some (stored 0 [0x00000000, 0x00000001, 0x863CCFCC, 0x67CD26D9, 0x9F6F7399, 0x04852DA8]) := by decide +kernel

/-- W11: 61 + 4 is above the 64 words of WM. -/
theorem test_encw_out_of_range :
    after (exec (.encw false) (loaded .little 0 0 61 0 4)) (fun t => t.status.word) = some 0x00000022 := by decide

/-- W7: the decrypt direction on the plaintext. -/
theorem test_decw :
    after (exec (.decw false) { loaded .little 0xC3AF3770 0 0 0 4 with
        wm := stored 0 [0x00000000, 0x00000001, 0xFFFFFFFF, 0x12345678] }) (fun t => t.wm) =
      some (stored 0 [0x863CCFCC, 0xEE09F6A5, 0x638EB3A9, 0x200CBB12]) := by decide +kernel

theorem test_decw_absent :
    after (exec (.decw true) (loaded .little 0 0 0xFFFFFFFF 0 9)) (fun t => (t.status.word, t.wm)) =
      some (0x00000010, []) := by decide

/-! ### ENCB, DECB, ENCBUF and DECBUF (B8, B11, B13, B16, B17) -/

/-- B11: the big-endian setting and a 3-byte tail. -/
theorem test_encb_big :
    after (exec (.encb false) { loaded .big 0x0000ABCD 0 0 16 7 with
        bm := stored 0 [0x11, 0x22, 0x33, 0x44, 0xA0, 0xA1, 0xA2] }) (fun t => t.readBytes 16 7) =
      some [0xD7, 0xBF, 0x2B, 0x17, 0xA2, 0xA1, 0xA0] := by decide +kernel

/-- B17: unaligned addresses. -/
theorem test_encb_unaligned :
    after (exec (.encb false) { loaded .little 7 0 3 9 5 with
        bm := stored 3 [0x01, 0x02, 0x03, 0x04, 0x05] }) (fun t => t.readBytes 9 5) =
      some [0xD3, 0x3E, 0xE7, 0x40, 0x05] := by decide +kernel

/-- B16: the decrypt direction first. -/
theorem test_decb_little :
    after (exec (.decb false) { loaded .little 7 0 0 0 9 with
        bm := stored 0 [0x01, 0x02, 0x03, 0x04, 0x05, 0x06, 0x07, 0x08, 0x09] }) (fun t => t.readBytes 0 9) =
      some [0xD3, 0x3E, 0xE7, 0x40, 0xCD, 0x51, 0xB1, 0x35, 0x09] := by decide +kernel

/-- B13: with the big-endian setting decryption does not restore the body. -/
theorem test_decb_big :
    after (exec (.decb false) { loaded .big 7 0 0 0 9 with
        bm := stored 0 [0xD6, 0x3F, 0xE6, 0x45, 0xF1, 0x1C, 0xD7, 0xF8, 0x09] }) (fun t => t.readBytes 0 9) =
      some [0x97, 0xDA, 0xDB, 0x92, 0x74, 0x24, 0xB6, 0x7E, 0x09] := by decide +kernel

/-- B8, in place at the end of BM, with a DST that would not fit. -/
theorem test_encbuf :
    after (exec (.encbuf false) { loaded .little 7 0 248 0xFFFFFFFF 8 with
        bm := stored 248 [0x01, 0x02, 0x03, 0x04, 0x05, 0x06, 0x07, 0x08] }) (fun t => t.readBytes 248 8) =
      some [0xD3, 0x3E, 0xE7, 0x40, 0xF3, 0x1C, 0xD5, 0x08] := by decide +kernel

theorem test_decbuf :
    after (exec (.decbuf false) { loaded .little 7 0 67 0 5 with
        bm := stored 67 [0xD3, 0x3E, 0xE7, 0x40, 0x05] }) (fun t => t.readBytes 67 5) =
      some [0x01, 0x02, 0x03, 0x04, 0x05] := by decide +kernel

/-! ### The host's accesses (R36 to R39) and the first step after reset -/

theorem test_first_step_after_reset :
    after (step (State.reset.withFetchWord 32 0x00000001)) (fun t => (t.cfg.word, t.status.word)) =
      some (0x00000002, 0x00000000) := by decide

/-- P5: a command before INIT raises STATE. -/
theorem test_command_before_init :
    after (step (State.reset.withFetchWord 32 0x00000004)) (fun t => (t.cfg.word, t.status.word)) =
      some (0x00000000, 0x00000024) := by decide

theorem test_status_reads_back :
    after (step { ready .little with status := ⟨.range, false, true⟩, pending := [.regRead 0x04 32] })
      (fun t => t.replies) = some [0x00000022] := by decide

theorem test_register_offset_refused :
    refusedWith .regOffsetOutside (step { State.reset with pending := [.regRead 0x24 32] }) = true := by decide

theorem test_trom_refused_before_init :
    refusedWith .tromNotBuilt (step { State.reset with pending := [.tromRead 0] }) = true := by decide

/-! ### Witnesses: encoding and steps -/

theorem witness_DecodeOfEncodeIsTheCommand : (Instr.hash 255 true).wellFormed = true := by decide

theorem witness_EncodeOfDecodeIsTheWord : decode 0x0002FF02 = .ok (.hash 255 true) := by decide

theorem witness_OpcodeRowsAreDisjoint :
    ∃ r ∈ opcodeRows, ∃ q ∈ opcodeRows, r.selects 0x0002FF02 = true ∧ q.selects 0x0002FF02 = true := by decide

theorem witness_IllegalWordsRaiseIllegal :
    (about State.reset 0x00010011).pending = .regWrite 0x00 32 0x00010011 :: [] ∧
      decode 0x00010011 = .error .reservedBit := by decide

theorem witness_StepRunsTheDecodedCommand :
    (about State.reset 0x00000402).pending = .regWrite 0x00 32 0x00000402 :: [] ∧
      decode 0x00000402 = .ok (.hash 4 false) := by decide

theorem witness_StepAfterWithFetchWord : decodeTableWord 32 0x0002000B = some (.decbuf true) := by decide

theorem witness_EveryCmdWriteCompletes :
    (about State.reset 0xFFFFFFFF).pending = .regWrite 0x00 32 0xFFFFFFFF :: [] := by decide

theorem witness_IdleEngineKeepsItsState : State.reset.pending = [] := by decide

/-- An action outside the interface at the boundary, and one inside it. -/
theorem witness_StepIsRefusedExactlyOutsideTheInterface :
    HostAction.inInterface (.wmRead 64) State.reset = false ∧ HostAction.inInterface (.wmRead 63) State.reset = true ∧
    HostAction.inInterface (.tromRead 1280) (ready .little) = false ∧
    HostAction.inInterface (.tromRead 1279) (ready .little) = true ∧
    HostAction.inInterface (.regRead 0x24 32) State.reset = false ∧
    HostAction.inInterface (.regRead 0x20 32) State.reset = true := by decide

/-! ### Witnesses: errors and frames -/

theorem witness_CommandOutcomeFollowsThePriority :
    (about (ready .little) 0x00010011).pending = .regWrite 0x00 32 0x00010011 :: [] ∧
      decode 0x00010011 = .error .reservedBit := by decide

theorem witness_ErrorsChangeOnlyStatus_exec :
    ∃ t, exec .enc1 State.reset = .next t ∧ t.status.err ≠ .ok := ⟨_, rfl, by decide⟩

theorem witness_ErrorsChangeOnlyStatus_step :
    ∃ t, (about State.reset 0xFFFFFFFF).pending = .regWrite 0x00 32 0xFFFFFFFF :: [] ∧
      step (about State.reset 0xFFFFFFFF) = .next t ∧ t.status.err ≠ .ok := ⟨_, by decide, rfl, by decide⟩

theorem witness_SuccessReportsAbsenceAndLeavesEstk :
    ∃ t, exec (.encw true) (ready .little) = .next t ∧ t.status.err = .ok := ⟨_, rfl, by decide⟩

theorem witness_EstkIsStickyUntilReset_reset :
    ∃ t, step { State.reset with pending := [.reset] } = .next t := ⟨_, rfl⟩

theorem witness_EstkIsStickyUntilReset_command :
    ∃ t, step (about State.reset 0xFFFFFFFF) = .next t ∧ HostAction.regWrite 0x00 32 0xFFFFFFFF ≠ .reset :=
  ⟨_, rfl, by decide⟩

theorem witness_StateErrorBeforeAndAfterInit :
    (ready .little).cfg.rdy = true ∧ State.reset.cfg.rdy = false ∧ ∀ e, Instr.decbuf false ≠ .init e := by
  refine ⟨by decide, by decide, fun e h => ?_⟩
  cases h

theorem witness_InvalidArgumentIsHashOnly :
    (ready .little).cfg.rdy = true ∧ 3 < 4 ∧
    (∃ t, exec .enc1 State.reset = .next t) ∧ ∀ kind absent, Instr.enc1 ≠ .hash kind absent := by
  refine ⟨by decide, by decide, ⟨_, rfl⟩, fun k a h => ?_⟩
  cases h

/-- W11: the first sum that does not fit, in SRC and in DST. -/
theorem witness_RangeErrors_words :
    (loaded .little 0 0 61 0 4).cfg.rdy = true ∧ (loaded .little 0 0 61 0 4).sizes.wmWords < 61 + 4 ∧
    (loaded .little 0 0 0 61 4).sizes.wmWords < (loaded .little 0 0 0 61 4).dst.toNat + 4 := by decide

/-- Section 2.2 and B18: 250 + 7 is above 256, and so is 257 + 0. -/
theorem witness_RangeErrors_bytes :
    (loaded .little 0 0 250 0 7).cfg.rdy = true ∧
    (loaded .little 0 0 250 0 7).sizes.bmBytes <
      (loaded .little 0 0 250 0 7).src.toNat + (loaded .little 0 0 250 0 7).len.toNat ∧
    (loaded .little 0 0 257 0 0).sizes.bmBytes < (loaded .little 0 0 257 0 0).src.toNat + 0 := by decide

theorem witness_RangeErrors_absent :
    ∃ t, exec (.encb true) (loaded .little 0 0 0xFFFFFFFF 0 9) = .next t := ⟨_, rfl⟩

theorem witness_AbsentInputPassesThrough : (loaded .little 0 0 0xFFFFFFFF 0 9).cfg.rdy = true := by decide

theorem witness_CommandsKeepTheOperandRegisters :
    ∃ t, exec (.encw false) (loaded .little 7 1 0 64 0) = .next t := ⟨_, rfl⟩

theorem witness_ResIsWrittenByThreeCommands_command :
    ∃ t, exec .enc1 (loaded .little 0 0 0 0 0) = .next t ∧ t.res ≠ (loaded .little 0 0 0 0 0).res :=
  ⟨_, rfl, by decide +kernel⟩

theorem witness_ResIsWrittenByThreeCommands_write :
    { State.reset with pending := [.regWrite 0x20 32 5] }.pending = .regWrite 0x20 32 5 :: [] := by decide

theorem witness_MemoriesAreWrittenByTheirCommands :
    (∃ t, exec (.encb false) (loaded .little 0 0 0 0 1) = .next t ∧
      ∀ absent, Instr.encb false ≠ .encw absent ∧ Instr.encb false ≠ .decw absent) ∧
    (∃ t, exec (.encw false) (loaded .little 0 0 0 0 1) = .next t ∧
      ∀ absent, Instr.encw false ≠ .encb absent ∧ Instr.encw false ≠ .decb absent ∧
        Instr.encw false ≠ .encbuf absent ∧ Instr.encw false ≠ .decbuf absent) :=
  ⟨⟨_, rfl, by decide⟩, ⟨_, rfl, by decide⟩⟩

/-- A second INIT on a configured core. -/
theorem witness_TableAndEndiannessAreWriteOnce_configured :
    (about (ready .big) 0x00000001).cfg.rdy = true ∧ HostAction.regWrite 0x00 32 0x00000001 ≠ .reset ∧
      ∃ t, step (about (ready .big) 0x00000001) = .next t := ⟨by decide, by decide, _, rfl⟩

/-- A host access before INIT. -/
theorem witness_TableAndEndiannessAreWriteOnce_access :
    (∃ t, step { State.reset with pending := [.tromWrite 0 5] } = .next t) ∧
      ∀ (c : Word) (e : Endian), HostAction.tromWrite 0 5 = .regWrite 0x00 32 c → decode c ≠ .ok (.init e) := by
  refine ⟨⟨_, rfl⟩, fun c e h => ?_⟩
  cases h

theorem witness_UnreadOperandsDoNotMatter :
    (∃ t, exec (.hash 0 false) (ready .little) = .next t) ∧ (∃ t, exec .dec1 (ready .little) = .next t) ∧
    (∃ t, exec (.encb false) (ready .little) = .next t) ∧ (∃ t, exec (.decbuf false) (ready .little) = .next t) ∧
    (∃ t, exec (.encw true) (ready .little) = .next t) ∧ (∃ t, exec (.init .big) State.reset = .next t) :=
  ⟨⟨_, rfl⟩, ⟨_, rfl⟩, ⟨_, rfl⟩, ⟨_, rfl⟩, ⟨_, rfl⟩, ⟨_, rfl⟩⟩

/-! ### Witnesses: the units -/

/-- The first and the last entry. -/
theorem witness_TableEntriesComeFromTheirDraws : (0 < 256 ∧ 0 < 5) ∧ (255 < 256 ∧ 4 < 5) := by decide

theorem witness_InitBuildsTheContext : State.reset.cfg.rdy = false := by decide

/-- Two cores that differ in a register. -/
theorem witness_TableIsTheSameForEveryInstance :
    State.reset.cfg.rdy = false ∧ { State.reset with key := 7 }.cfg.rdy = false := by decide

/-- A string that ends at the end of BM. -/
theorem witness_HashComputesTheRecurrence :
    (loaded .little 0 0 250 0 6).cfg.rdy = true ∧ 2 < (loaded .little 0 0 250 0 6).len.toNat ∧
    (loaded .little 0 0 250 0 6).src.toNat + (loaded .little 0 0 250 0 6).len.toNat ≤
      (loaded .little 0 0 250 0 6).sizes.bmBytes := by decide

theorem witness_HashIsCaseInsensitive :
    ([0x66, 0x6F, 0x6F] : List Byte).map foldUpper = [0x46, 0x6F, 0x4F].map foldUpper ∧
    (ready .little).table = buildTable := ⟨by decide, rfl⟩

theorem witness_EmptyStringHashesToTheInitialSeed :
    (loaded .little 0 0 256 0 0).cfg.rdy = true ∧ 3 ≤ 3 ∧ (loaded .little 0 0 256 0 0).len = 0 ∧
    (loaded .little 0 0 256 0 0).src.toNat ≤ (loaded .little 0 0 256 0 0).sizes.bmBytes := by decide

/-- Two tables that agree on region 1 and nowhere else. -/
theorem witness_HashReadsItsOwnRegion :
    ∀ i, HashKind.nameA.value * 256 ≤ i → i < HashKind.nameA.value * 256 + 256 →
      (fun _ => 0 : Nat → Word) i = (fun i => if 256 ≤ i ∧ i < 512 then 0 else 1) i := by
  intro i h1 h2
  have : 256 ≤ i ∧ i < 512 := by simp [HashKind.value] at h1 h2; omega
  simp [this]

theorem witness_CipherFollowsTheRecurrence : ([5, 6] : List Word)[1]? = some 6 := by decide

/-- The three ranges end where WM ends. -/
theorem witness_WordRoundTrip :
    (loaded .little 7 0 60 60 4).cfg.rdy = true ∧
    (loaded .little 7 0 60 60 4).src.toNat + (loaded .little 7 0 60 60 4).len.toNat ≤
      (loaded .little 7 0 60 60 4).sizes.wmWords ∧
    (loaded .little 7 0 60 60 4).dst.toNat + (loaded .little 7 0 60 60 4).len.toNat ≤
      (loaded .little 7 0 60 60 4).sizes.wmWords ∧
    (60 : Word).toNat + (loaded .little 7 0 60 60 4).len.toNat ≤ (loaded .little 7 0 60 60 4).sizes.wmWords ∧
    3 < (loaded .little 7 0 60 60 4).len.toNat := by decide

/-- Two tables that agree on region 4 and nowhere else. -/
theorem witness_CipherReadsRegionFour :
    ∀ i, 0x400 ≤ i → i ≤ 0x4FF →
      (fun _ => 0 : Nat → Word) i = (fun i => if 0x400 ≤ i ∧ i ≤ 0x4FF then 0 else 1) i := by
  intro i h1 h2
  simp [h1, h2]

theorem witness_SingleWordCommandsWriteRes : (ready .little).cfg.rdy = true := by decide

/-- Overlapping ranges, the output ending where WM ends; an output index, and an index outside the output. -/
theorem witness_WordCommandsWriteTheCipher :
    (loaded .little 7 0 59 60 4).cfg.rdy = true ∧
    (loaded .little 7 0 59 60 4).src.toNat + (loaded .little 7 0 59 60 4).len.toNat ≤
      (loaded .little 7 0 59 60 4).sizes.wmWords ∧
    (loaded .little 7 0 59 60 4).dst.toNat + (loaded .little 7 0 59 60 4).len.toNat ≤
      (loaded .little 7 0 59 60 4).sizes.wmWords ∧
    3 < (loaded .little 7 0 59 60 4).len.toNat ∧
    ¬ ((loaded .little 7 0 59 60 4).dst.toNat ≤ 59 ∧
      59 < (loaded .little 7 0 59 60 4).dst.toNat + (loaded .little 7 0 59 60 4).len.toNat) := by decide

/-- W11: accepted at the end of WM, refused one word later. -/
theorem witness_EmptyWordSequenceCompletes :
    (loaded .little 7 0 64 64 0).cfg.rdy = true ∧ (loaded .little 7 0 64 64 0).len = 0 ∧
    (loaded .little 7 0 65 64 0).cfg.rdy = true ∧ (loaded .little 7 0 65 64 0).len = 0 := by decide

/-- Five bytes: one group and a tail of one byte. -/
theorem witness_CodecFollowsTheSixSteps :
    0 < ([1, 2, 3, 4, 5] : List Byte).length / 4 ∧ 3 < 4 ∧ 0 < ([1, 2, 3, 4, 5] : List Byte).length % 4 := by decide

theorem witness_TailIsReversedAndNotEnciphered : ([1, 2, 3] : List Byte).length < 4 := by decide

theorem witness_BigEndianDoesNotRoundTrip : (ready .big).table = buildTable := rfl

/-- One group that is no palindrome; and three bytes. -/
theorem witness_EndiannessChangesTheCiphertext :
    (0 < ([1, 2, 3, 4] : List Byte).length / 4 ∧ ([1, 2, 3, 4] : List Byte)[4 * 0]? = some 1 ∧
      ([1, 2, 3, 4] : List Byte)[4 * 0 + 1]? = some 2 ∧ ([1, 2, 3, 4] : List Byte)[4 * 0 + 2]? = some 3 ∧
      ([1, 2, 3, 4] : List Byte)[4 * 0 + 3]? = some 4 ∧ ¬ ((1 : Byte) = 4 ∧ (2 : Byte) = 3)) ∧
    ([1, 2, 3] : List Byte).length < 4 := by decide

theorem witness_EndiannessChangesTheCiphertext_table : (ready .little).table = buildTable := rfl

/-- Overlapping ranges, the output ending where BM ends; an output address, and an address outside the output. -/
theorem witness_ByteCommandsWriteTheCipher :
    (loaded .big 7 0 247 249 7).cfg.rdy = true ∧
    (loaded .big 7 0 247 249 7).src.toNat + (loaded .big 7 0 247 249 7).len.toNat ≤
      (loaded .big 7 0 247 249 7).sizes.bmBytes ∧
    (loaded .big 7 0 247 249 7).dst.toNat + (loaded .big 7 0 247 249 7).len.toNat ≤
      (loaded .big 7 0 247 249 7).sizes.bmBytes ∧
    6 < (loaded .big 7 0 247 249 7).len.toNat ∧
    ¬ ((loaded .big 7 0 247 249 7).dst.toNat ≤ 248 ∧
      248 < (loaded .big 7 0 247 249 7).dst.toNat + (loaded .big 7 0 247 249 7).len.toNat) := by decide

/-- B18: a DST that would not fit. -/
theorem witness_BufferCommandsWriteInPlace :
    (loaded .little 7 0 249 0xFFFFFFFF 7).cfg.rdy = true ∧
    (loaded .little 7 0 249 0xFFFFFFFF 7).src.toNat + (loaded .little 7 0 249 0xFFFFFFFF 7).len.toNat ≤
      (loaded .little 7 0 249 0xFFFFFFFF 7).sizes.bmBytes ∧
    6 < (loaded .little 7 0 249 0xFFFFFFFF 7).len.toNat ∧
    ¬ ((loaded .little 7 0 249 0xFFFFFFFF 7).src.toNat ≤ 248 ∧
      248 < (loaded .little 7 0 249 0xFFFFFFFF 7).src.toNat + (loaded .little 7 0 249 0xFFFFFFFF 7).len.toNat) := by
  decide

/-! ### Witnesses: the host's accesses, reset and the invariant -/

/-- A read, and a write to each space. -/
theorem witness_OnlyCmdWritesHaveSideEffects :
    (∃ t, step { ready .little with pending := [.tromRead 1279] } = .next t) ∧ HostAction.isRead (.tromRead 1279) = true ∧
    (∃ t, step { State.reset with pending := [.regWrite 0x1C 32 9] } = .next t) ∧ 0x1C ≠ 0x00 ∧
    (∃ t, step { State.reset with pending := [.tromWrite 1279 9] } = .next t) ∧
    (∃ t, step { State.reset with pending := [.wmWrite 63 9] } = .next t) ∧
    (∃ t, step { State.reset with pending := [.bmWrite 255 9] } = .next t) :=
  ⟨⟨_, rfl⟩, by decide, ⟨_, rfl⟩, by decide, ⟨_, rfl⟩, ⟨_, rfl⟩, ⟨_, rfl⟩⟩

theorem witness_OperandRegistersReadBack :
    { State.reset with pending := [.regWrite 0x1C 32 9, .regRead 0x1C 32] }.pending =
      .regWrite 0x1C 32 9 :: .regRead 0x1C 32 :: [] := by decide

theorem witness_ReadOnlyRegisters :
    { State.reset with pending := [.regRead 0x20 32] }.pending = .regRead 0x20 32 :: [] ∧
    { State.reset with pending := [.regWrite 0x20 32 9] }.pending = .regWrite 0x20 32 9 :: [] := by decide

/-- The last index and the first beyond it, before and after INIT. -/
theorem witness_TromWindow :
    ({ ready .little with pending := [.tromRead 1279] }.pending = .tromRead 1279 :: [] ∧ 1279 ≤ 1279 ∧
      { ready .little with pending := [.tromRead 1279] }.cfg.rdy = true) ∧
    ({ State.reset with pending := [.tromRead 0] }.pending = .tromRead 0 :: [] ∧
      { State.reset with pending := [.tromRead 0] }.cfg.rdy = false) ∧
    { State.reset with pending := [.tromWrite 1279 5] }.pending = .tromWrite 1279 5 :: [] ∧
    ({ State.reset with pending := [.tromWrite 1280 5] }.pending = .tromWrite 1280 5 :: [] ∧ 1279 < 1280) := by decide

/-- The last element and the first beyond it. -/
theorem witness_MemoryWindows :
    ({ State.reset with pending := [.wmWrite 63 5] }.pending = .wmWrite 63 5 :: [] ∧ 63 < State.reset.sizes.wmWords) ∧
    ({ State.reset with pending := [.wmRead 64] }.pending = .wmRead 64 :: [] ∧ State.reset.sizes.wmWords ≤ 64) ∧
    ({ State.reset with pending := [.wmRead 63] }.pending = .wmRead 63 :: [] ∧ 63 < State.reset.sizes.wmWords) ∧
    ({ State.reset with pending := [.bmWrite 255 5] }.pending = .bmWrite 255 5 :: [] ∧
      255 < State.reset.sizes.bmBytes) ∧
    ({ State.reset with pending := [.bmRead 255] }.pending = .bmRead 255 :: [] ∧ 255 < State.reset.sizes.bmBytes) ∧
    ({ State.reset with pending := [.bmRead 256] }.pending = .bmRead 256 :: [] ∧ State.reset.sizes.bmBytes ≤ 256) := by
  decide

theorem witness_ResetLeavesTheSpecifiedValues :
    { ready .big with pending := [.reset] }.pending = .reset :: [] := by decide

/-- A configured core that meets the invariant takes a step. -/
theorem witness_EveryStepKeepsTheInvariant :
    (about (ready .little) 0x00020008).Inv ∧ ∃ t, step (about (ready .little) 0x00020008) = .next t := by
  refine ⟨⟨by decide, by decide, by decide, fun _ => rfl, ?_, ?_, ?_⟩, _, rfl⟩
  · intro h; cases h
  · intro h; exact absurd rfl h
  · intro h; cases h

end Sys2Proof.Tests
end

section
/-! The statements of 00_scope.md: a CMD write of a legal word runs exactly the command it decodes to. -/

namespace Sys2Proof

/-- KIND is read from eight bits (R53, R55). -/
theorem kindField_lt (c : Word) : kindField c < 256 := (c.extractLsb' 8 8).isLt

/-- Only KIND could leave the range of its field: every other operand fits by its type (R53). -/
theorem operandsOf_wellFormed (c : Word) (op : Op) : (operandsOf c op).wellFormed = true := by
  cases op with
  | hash => exact decide_eq_true (kindField_lt c)
  | _ => rfl

/-- A legal word stands for the operands of a row of the opcode map that it selects (R59, R65). -/
theorem decode_eq_ok {c : Word} {i : Instr} (h : decode c = .ok i) :
    ∃ r ∈ opcodeRows, r.selects c = true ∧ operandsOf c r.op = i := by
  unfold decode at h
  split at h
  · next r hr =>
    cases h
    exact ⟨r, List.mem_of_find?_eq_some hr, List.find?_some (p := (OpcodeRow.selects · c)) hr, rfl⟩
  · cases h

theorem wellFormed_of_decode {c : Word} {i : Instr} (h : decode c = .ok i) : i.wellFormed = true := by
  obtain ⟨r, -, -, rfl⟩ := decode_eq_ok h
  exact operandsOf_wellFormed c r.op

end Sys2Proof

namespace Sys2Proof.Machine

/-- R65: a legal word runs as its command. -/
theorem command_of_decode_ok {c : Word} {i : Instr} (h : decode c = .ok i) (s : State) : command c s = exec i s := by
  rw [command, h]

theorem perform_eq_command {a : HostAction} {c : Word} (h : commandWord? a = some c) (s : State) :
    perform a s = command c s := by
  rw [perform, h]

theorem step_of_pending {s : State} {a : HostAction} {rest : List HostAction} (h : s.pending = a :: rest) :
    step s = perform a (s.withPending rest) := by
  rw [step, h]

/-- R19: the next action being a 32-bit write of CMD, the step is the command of the word written. -/
theorem step_of_cmdWrite {s : State} {c : Word} {rest : List HostAction}
    (h : s.pending = .regWrite 0 32 c :: rest) : step s = command c (s.withPending rest) :=
  (step_of_pending h).trans (perform_eq_command (commandWord?_eq_some.mpr rfl) _)

/-- Settles O6: the step is the command of the word written (`step_of_cmdWrite`), and a word that decodes runs as its
instruction (`command_of_decode_ok`), whose KIND is eight bits wide. -/
theorem stepRunsTheDecodedCommand : Obligations.StepRunsTheDecodedCommand := by
  intro s c rest i hp hd
  refine ⟨wellFormed_of_decode hd, ?_⟩
  calc step s = command c (s.withPending rest) := step_of_cmdWrite hp
    _ = exec i { s with pending := rest } := command_of_decode_ok hd _

end Sys2Proof.Machine
end

section
/-! The statements of 10_state.md: what a command writes and leaves, which part of the table a computation reads, how the
registers read back, and the invariant that every step keeps. -/

namespace Sys2Proof.Machine

/-! ### What a command leaves -/

/-- The seven fields left out are written by no command: KEY, VAL, SRC, DST and LEN (R26), the sizes, and what is the
model's own. -/
theorem exec_writes_only {i : Instr} {s t : State} (hx : exec i s = .next t) :
    ∃ table cfg status res wm bm,
      t = { s with table := table, cfg := cfg, status := status, res := res, wm := wm, bm := bm } := by
  rcases exec_cases hx with ⟨e, -, rfl⟩ | ⟨e, -, -, rfl⟩ | ⟨k, -, -, -, rfl⟩ | ⟨dir, -, -, rfl⟩ | ⟨-, -, rfl⟩ |
    ⟨dir, -, -, -, rfl⟩ | ⟨dir, -, -, -, rfl⟩ | ⟨dir, -, -, -, rfl⟩
  all_goals exact ⟨_, _, _, _, _, _, rfl⟩

/-- R25: a command other than HASH, ENC1 and DEC1 leaves RES, and so do these when they raise an error. -/
theorem exec_res {i : Instr} {s t : State} (hx : exec i s = .next t) :
    t.res = s.res ∨ (t.status.err = .ok ∧ (i = .enc1 ∨ i = .dec1 ∨ ∃ kind absent, i = .hash kind absent)) := by
  rcases exec_cases hx with ⟨e, -, rfl⟩ | ⟨e, -, -, rfl⟩ | ⟨k, rfl, -, -, rfl⟩ | ⟨dir, hi, -, rfl⟩ | ⟨-, -, rfl⟩ |
    ⟨dir, -, -, -, rfl⟩ | ⟨dir, -, -, -, rfl⟩ | ⟨dir, -, -, -, rfl⟩
  · exact .inl rfl
  · exact .inl rfl
  · exact .inr ⟨rfl, .inr (.inr ⟨k.value, false, rfl⟩)⟩
  · rcases hi with ⟨rfl, -⟩ | ⟨rfl, -⟩
    · exact .inr ⟨rfl, .inl rfl⟩
    · exact .inr ⟨rfl, .inr (.inl rfl)⟩
  all_goals exact .inl rfl

/-- R30: a command that is neither ENCW nor DECW leaves every element of WM. -/
theorem exec_wmAt {i : Instr} {s t : State} (hx : exec i s = .next t)
    (hi : ∀ absent, i ≠ .encw absent ∧ i ≠ .decw absent) : t.wmAt = s.wmAt := by
  obtain ⟨hencw, hdecw⟩ := hi false
  rcases exec_cases hx with ⟨e, -, rfl⟩ | ⟨e, -, -, rfl⟩ | ⟨k, -, -, -, rfl⟩ | ⟨dir, -, -, rfl⟩ | ⟨-, -, rfl⟩ |
    ⟨dir, hw, -, -, rfl⟩ | ⟨dir, -, -, -, rfl⟩ | ⟨dir, -, -, -, rfl⟩
  · simp
  · simp
  · simp
  · simp
  · simp
  · rcases hw with ⟨rfl, -⟩ | ⟨rfl, -⟩
    · exact absurd rfl hencw
    · exact absurd rfl hdecw
  · simp
  · simp

/-- R31: a command that is not one of the four byte commands leaves every byte of BM. -/
theorem exec_bmAt {i : Instr} {s t : State} (hx : exec i s = .next t)
    (hi : ∀ absent, i ≠ .encb absent ∧ i ≠ .decb absent ∧ i ≠ .encbuf absent ∧ i ≠ .decbuf absent) :
    t.bmAt = s.bmAt := by
  obtain ⟨hencb, hdecb, hencbuf, hdecbuf⟩ := hi false
  rcases exec_cases hx with ⟨e, -, rfl⟩ | ⟨e, -, -, rfl⟩ | ⟨k, -, -, -, rfl⟩ | ⟨dir, -, -, rfl⟩ | ⟨-, -, rfl⟩ |
    ⟨dir, -, -, -, rfl⟩ | ⟨dir, hb, -, -, rfl⟩ | ⟨dir, hb, -, -, rfl⟩
  · simp
  · simp
  · simp
  · simp
  · simp
  · simp
  · rcases hb with ⟨rfl, -⟩ | ⟨rfl, -⟩
    · exact absurd rfl hencb
    · exact absurd rfl hdecb
  · rcases hb with ⟨rfl, -⟩ | ⟨rfl, -⟩
    · exact absurd rfl hencbuf
    · exact absurd rfl hdecbuf

/-- R15, R17: only an INIT on a core that is not configured writes the table and CFG. -/
theorem exec_table_cfg {i : Instr} {s t : State} (hx : exec i s = .next t)
    (hi : s.cfg.rdy = true ∨ ∀ e, i ≠ .init e) : t.table = s.table ∧ t.cfg = s.cfg := by
  rcases exec_cases hx with ⟨e, -, rfl⟩ | ⟨e, rfl, hr, rfl⟩ | ⟨k, -, -, -, rfl⟩ | ⟨dir, -, -, rfl⟩ | ⟨-, -, rfl⟩ |
    ⟨dir, -, -, -, rfl⟩ | ⟨dir, -, -, -, rfl⟩ | ⟨dir, -, -, -, rfl⟩
  · exact ⟨rfl, rfl⟩
  · rcases hi with hrdy | hne
    · rw [hr] at hrdy; cases hrdy
    · exact absurd rfl (hne e)
  all_goals exact ⟨rfl, rfl⟩

/-- R44: a host access other than reset leaves the table and CFG. -/
theorem hostAccess_table_cfg {a : HostAction} {s t : State} (hx : hostAccess a s = .next t) (ha : a ≠ .reset) :
    t.table = s.table ∧ t.cfg = s.cfg := by
  rcases hostAccess_cases hx with ⟨o, r, -, -, rfl⟩ | ⟨o, r, v, -, -, rfl⟩ | ⟨j, -, -, -, rfl⟩ | ⟨j, v, -, -, rfl⟩ |
    ⟨j, -, -, rfl⟩ | ⟨j, v, -, -, rfl⟩ | ⟨b, -, -, rfl⟩ | ⟨b, v, -, -, rfl⟩ | ⟨rfl, -⟩
  pick_goal 9
  · exact absurd rfl ha
  all_goals simp

/-! ### The host's register accesses, as steps -/

theorem hostAccess_regRead (r : Reg) (s : State) :
    hostAccess (.regRead r.offset 32) s = .next (s.reply (s.readReg r)) := by
  rw [hostAccess, regAccess_eq_ok.mpr ⟨rfl, rfl⟩]

theorem hostAccess_regWrite (r : Reg) (v : Word) (s : State) :
    hostAccess (.regWrite r.offset 32 v) s = .next (s.writeReg r v) := by
  rw [hostAccess, regAccess_eq_ok.mpr ⟨rfl, rfl⟩]

theorem perform_eq_hostAccess {a : HostAction} (h : commandWord? a = none) (s : State) :
    perform a s = hostAccess a s := by
  rw [perform, h]

/-- R36, R49: a step that reads a register replies its value. -/
theorem step_of_regRead {s : State} {r : Reg} {rest : List HostAction} (h : s.pending = .regRead r.offset 32 :: rest) :
    step s = .next ((s.withPending rest).reply ((s.withPending rest).readReg r)) := by
  rw [step_of_pending h, perform_eq_hostAccess rfl, hostAccess_regRead]

/-- R36: a step that writes a register other than CMD does what the write of the register does. -/
theorem step_of_regWrite {s : State} {r : Reg} {v : Word} {rest : List HostAction} (hr : r ≠ .cmd)
    (h : s.pending = .regWrite r.offset 32 v :: rest) : step s = .next ((s.withPending rest).writeReg r v) := by
  have hword : commandWord? (.regWrite r.offset 32 v) = none := by
    cases r with
    | cmd => exact absurd rfl hr
    | _ => rfl
  rw [step_of_pending h, perform_eq_hostAccess hword, hostAccess_regWrite]

/-- R139: a step that applies reset answers the state after reset. -/
theorem step_of_reset {s : State} {rest : List HostAction} (h : s.pending = .reset :: rest) :
    step s = .next (s.withPending rest).applyReset :=
  step_of_pending h

/-! ### A word of the opcode table -/

/-- A table word that decodes is a command word that decodes, the word cut to 32 bits (R53). -/
theorem decode_of_decodeTableWord {w : Nat} {i : Instr} (h : decodeTableWord 32 w = some i) :
    decode (BitVec.ofNat 32 (w % 2 ^ 32)) = .ok i := by
  obtain ⟨-, hmatch⟩ := Option.ite_none_right_eq_some.mp h
  split at hmatch
  · next j hj => cases hmatch; exact hj
  · cases hmatch

/-! ### The layout of STATUS and CFG -/

/-- A concatenation in numbers: the high part shifted by the width of the low one. -/
theorem toNat_append_eq_add {n m : Nat} (x : BitVec n) (y : BitVec m) :
    (x ++ y).toNat = 2 ^ m * x.toNat + y.toNat := by
  rw [BitVec.toNat_append, Nat.shiftLeft_eq, Nat.mul_comm, Nat.two_pow_add_eq_or_of_lt y.isLt]

/-- STATUS in numbers (R18). -/
theorem Status.toNat_word (st : Status) : st.word.toNat =
    st.err.code.toNat + (if st.rabs = true then 2 ^ 4 else 0) + (if st.estk = true then 2 ^ 5 else 0) := by
  obtain ⟨err, rabs, estk⟩ := st
  simp only [Status.word, toNat_append_eq_add]
  cases rabs <;> cases estk <;> simp <;> omega

/-- CFG in numbers (R17). -/
theorem Cfg.toNat_word (c : Cfg) :
    c.word.toNat = (if c.endian = .big then 1 else 0) + (if c.rdy = true then 2 else 0) := by
  obtain ⟨endian, rdy⟩ := c
  simp only [Cfg.word, toNat_append_eq_add]
  cases endian <;> cases rdy <;> rfl

theorem Cfg.word_unconfigured : Cfg.word ⟨.little, false⟩ = 0 := by decide

theorem Status.word_clear : Status.word ⟨.ok, false, false⟩ = 0 := by decide

/-! ### What the hash and the cipher read of the table -/

/-- R79: a step of the hash reads one entry, inside the region of its kind. -/
theorem hashStep_congr {T U : Nat → Word} {k : HashKind}
    (h : ∀ i, k.value * 256 ≤ i → i < k.value * 256 + 256 → T i = U i) : hashStep T k = hashStep U k := by
  funext acc b
  have hlt : (foldUpper b).toNat < 256 := (foldUpper b).isLt
  have hentry : T (k.regionBase + (foldUpper b).toNat) = U (k.regionBase + (foldUpper b).toNat) :=
    h _ (Nat.le_add_right _ _) (Nat.add_lt_add_left hlt _)
  simp only [hashStep, hentry]

/-- R87: the index of the cipher's entry lies in region 4. -/
theorem lookupIndex_bounds (key : Word) : 0x400 ≤ lookupIndex key ∧ lookupIndex key ≤ 0x4FF := by
  have hle : (key &&& 0xFF).toNat ≤ 0xFF := by
    rw [BitVec.toNat_and]; exact Nat.and_le_right
  unfold lookupIndex
  omega

/-- R89: a step of the cipher reads one entry, inside region 4. -/
theorem cipherStep_congr {T U : Nat → Word} (h : ∀ i, 0x400 ≤ i → i ≤ 0x4FF → T i = U i) (dir : Direction)
    (c : CipherState) (w : Word) : cipherStep T dir c w = cipherStep U dir c w := by
  obtain ⟨hlow, hhigh⟩ := lookupIndex_bounds c.key
  simp only [cipherStep, h _ hlow hhigh]

theorem cipherWords_congr {T U : Nat → Word} (h : ∀ i, 0x400 ≤ i → i ≤ 0x4FF → T i = U i) (dir : Direction)
    (ws : List Word) (c : CipherState) : cipherWords T dir c ws = cipherWords U dir c ws := by
  induction ws generalizing c with
  | nil => rfl
  | cons w ws ih => rw [cipherWords_cons, cipherWords_cons, cipherStep_congr h, ih]

/-! ### The outputs are as long as the inputs -/

@[simp] theorem length_cipherWords (T : Nat → Word) (dir : Direction) (c : CipherState) (ws : List Word) :
    (cipherWords T dir c ws).length = ws.length := by
  induction ws generalizing c with
  | nil => rfl
  | cons w ws ih => simp [ih]

@[simp] theorem length_cryptWords (T : Nat → Word) (dir : Direction) (ws : List Word) (key : Word) :
    (cryptWords T dir ws key).length = ws.length := length_cipherWords ..

/-- R105: one word for each group of four bytes. -/
@[simp] theorem length_groupWords (e : Endian) : ∀ bs : List Byte, (groupWords e bs).length = bs.length / 4
  | [] | [_] | [_, _] | [_, _, _] => by simp [groupWords]
  | b0 :: b1 :: b2 :: b3 :: rest => by
    simp only [groupWords_cons, List.length_cons, length_groupWords e rest]
    omega

theorem length_flatMap_wordToBytes (ws : List Word) : (ws.flatMap wordToBytes).length = 4 * ws.length := by
  induction ws with
  | nil => rfl
  | cons w ws ih =>
    rw [List.flatMap_cons, List.length_append, ih, length_wordToBytes, List.length_cons]
    omega

/-- R108: the words give the whole-word region's length back, and the tail keeps its own. -/
@[simp] theorem length_cryptBytes (T : Nat → Word) (dir : Direction) (src : List Byte) (key : Word) (e : Endian) :
    (cryptBytes T dir src key e).length = src.length := by
  have hparts : (wholeWords src).length + (remainder src).length = src.length := by
    rw [← List.length_append, wholeWords_append_remainder]
  have hwhole := length_wholeWords src
  simp only [cryptBytes, List.length_append, length_flatMap_wordToBytes, length_cryptWords, length_groupWords,
    List.length_reverse]
  omega

@[simp] theorem State.length_outputBytes (s : State) (dir : Direction) : (s.outputBytes dir).length = s.len.toNat := by
  simp [State.outputBytes]

/-! ### The invariant: one lemma for each update of the state -/

/-- The invariant speaks of six fields only. -/
theorem State.Inv.of_fields_eq {s t : State} (hs : s.Inv) (htable : t.table = s.table) (hcfg : t.cfg = s.cfg)
    (hstatus : t.status = s.status) (hwm : t.wm = s.wm) (hbm : t.bm = s.bm) (hsizes : t.sizes = s.sizes) : t.Inv := by
  unfold State.Inv
  rw [htable, hcfg, hstatus, hwm, hbm, hsizes]
  exact hs

/-- Nothing built, nothing written and a clear STATUS meet the invariant, whatever the sizes (R34). -/
theorem State.Inv.of_cleared {s : State} (hlegal : s.sizes.legal = true) (htable : s.table = [])
    (hcfg : s.cfg = ⟨.little, false⟩) (hstatus : s.status = ⟨.ok, false, false⟩) (hwm : s.wm = []) (hbm : s.bm = []) :
    s.Inv := by
  unfold State.Inv
  rw [htable, hcfg, hstatus, hwm, hbm]
  exact ⟨hlegal, ⟨rfl, rfl⟩, ⟨rfl, rfl⟩, nofun, fun _ => ⟨rfl, rfl⟩, fun h => absurd rfl h, nofun⟩

theorem State.Inv.withPending {s : State} (hs : s.Inv) (l : List HostAction) : (s.withPending l).Inv :=
  hs.of_fields_eq rfl rfl rfl rfl rfl rfl

theorem State.Inv.reply {s : State} (hs : s.Inv) (v : Word) : (s.reply v).Inv :=
  hs.of_fields_eq rfl rfl rfl rfl rfl rfl

theorem State.Inv.writeRes {s : State} (hs : s.Inv) (v : Word) : (s.writeRes v).Inv :=
  hs.of_fields_eq rfl rfl rfl rfl rfl rfl

theorem State.Inv.writeReg {s : State} (hs : s.Inv) (r : Reg) (v : Word) : (s.writeReg r v).Inv :=
  hs.of_fields_eq (by simp) (by simp) (by simp) (by simp) (by simp) (by simp)

theorem State.Inv.applyReset {s : State} (hs : s.Inv) : s.applyReset.Inv := by
  obtain ⟨hlegal, -⟩ := hs
  exact .of_cleared hlegal rfl rfl rfl rfl rfl

/-- R129: the report of an error is consistent, whatever STATUS held. -/
theorem State.Inv.raiseError {s : State} (hs : s.Inv) (e : ErrCode) : (s.raiseError e).Inv := by
  obtain ⟨hlegal, hwm, hbm, hbuilt, hunbuilt, -, -⟩ := hs
  exact ⟨hlegal, hwm, hbm, hbuilt, hunbuilt, fun _ => ⟨rfl, rfl⟩, nofun⟩

/-- R132, R138: an absent result may be reported of a configured core only. -/
theorem State.Inv.complete {s : State} (hs : s.Inv) {absent : Bool} (h : absent = true → s.cfg.rdy = true) :
    (s.complete absent).Inv := by
  obtain ⟨hlegal, hwm, hbm, hbuilt, hunbuilt, -, -⟩ := hs
  exact ⟨hlegal, hwm, hbm, hbuilt, hunbuilt, fun herr => absurd rfl herr, h⟩

/-- R74: the table INIT installs is the built one. -/
theorem State.Inv.install {s : State} (hs : s.Inv) (e : Endian) : (s.install buildTable e).Inv := by
  obtain ⟨hlegal, hwm, hbm, -, -, herr, -⟩ := hs
  exact ⟨hlegal, hwm, hbm, fun _ => rfl, nofun, herr, fun _ => rfl⟩

/-- R30: words written inside WM leave it canonical and inside its size. -/
theorem State.Inv.writeWords {s : State} (hs : s.Inv) {a : Nat} {ws : List Word} (h : a + ws.length ≤ s.sizes.wmWords) :
    (s.writeWords a ws).Inv := by
  obtain ⟨hlegal, ⟨hwf, hin⟩, hrest⟩ := hs
  exact ⟨hlegal, ⟨Memory.wf_writeSeq ws s.wm a hwf, Memory.within_writeSeq ws s.wm a _ hin h⟩, hrest⟩

/-- R31: bytes written inside BM leave it canonical and inside its size. -/
theorem State.Inv.writeBytes {s : State} (hs : s.Inv) {a : Nat} {bs : List Byte} (h : a + bs.length ≤ s.sizes.bmBytes) :
    (s.writeBytes a bs).Inv := by
  obtain ⟨hlegal, hwm, ⟨hwf, hin⟩, hrest⟩ := hs
  exact ⟨hlegal, hwm, ⟨Memory.wf_writeSeq bs s.bm a hwf, Memory.within_writeSeq bs s.bm a _ hin h⟩, hrest⟩

/-! ### The invariant: commands, host accesses and steps -/

theorem exec_keeps_inv {i : Instr} {s t : State} (hs : s.Inv) (hx : exec i s = .next t) : t.Inv := by
  rcases exec_cases hx with ⟨e, -, rfl⟩ | ⟨e, -, -, rfl⟩ | ⟨k, -, -, -, rfl⟩ | ⟨dir, -, -, rfl⟩ | ⟨-, hr, rfl⟩ |
    ⟨dir, -, -, hfits, rfl⟩ | ⟨dir, -, -, hfits, rfl⟩ | ⟨dir, -, -, hfits, rfl⟩
  · exact hs.raiseError e
  · exact (hs.install e).complete nofun
  · exact (hs.writeRes _).complete nofun
  · exact (hs.writeRes _).complete nofun
  · exact hs.complete fun _ => hr
  · obtain ⟨-, hdst⟩ := Bool.and_eq_true_iff.mp hfits
    exact (hs.writeWords (by simpa [State.wmDstFits] using hdst)).complete nofun
  · obtain ⟨-, hdst⟩ := Bool.and_eq_true_iff.mp hfits
    exact (hs.writeBytes (by simpa [State.bmDstFits] using hdst)).complete nofun
  · exact (hs.writeBytes (by simpa [State.bmSrcFits] using hfits)).complete nofun

theorem exec_sizes {i : Instr} {s t : State} (hx : exec i s = .next t) : t.sizes = s.sizes := by
  obtain ⟨_, _, _, _, _, _, rfl⟩ := exec_writes_only hx
  rfl

theorem hostAccess_keeps_inv {a : HostAction} {s t : State} (hs : s.Inv) (hx : hostAccess a s = .next t) : t.Inv := by
  rcases hostAccess_cases hx with ⟨o, r, -, -, rfl⟩ | ⟨o, r, v, -, -, rfl⟩ | ⟨j, -, -, -, rfl⟩ | ⟨j, v, -, -, rfl⟩ |
    ⟨j, -, -, rfl⟩ | ⟨j, v, -, hj, rfl⟩ | ⟨b, -, -, rfl⟩ | ⟨b, v, -, hb, rfl⟩ | ⟨-, rfl⟩
  · exact hs.reply _
  · exact hs.writeReg r v
  · exact hs.reply _
  · exact hs
  · exact hs.reply _
  · exact hs.writeWords hj
  · exact hs.reply _
  · exact hs.writeBytes hb
  · exact hs.applyReset

theorem hostAccess_sizes {a : HostAction} {s t : State} (hx : hostAccess a s = .next t) : t.sizes = s.sizes := by
  rcases hostAccess_cases hx with ⟨o, r, -, -, rfl⟩ | ⟨o, r, v, -, -, rfl⟩ | ⟨j, -, -, -, rfl⟩ | ⟨j, v, -, -, rfl⟩ |
    ⟨j, -, -, rfl⟩ | ⟨j, v, -, -, rfl⟩ | ⟨b, -, -, rfl⟩ | ⟨b, v, -, -, rfl⟩ | ⟨-, rfl⟩
  all_goals simp

theorem step_keeps_inv {s t : State} (hs : s.Inv) (h : step s = .next t) : t.Inv := by
  rcases step_cases h with ⟨-, rfl⟩ | ⟨c, rest, i, -, -, hx⟩ | ⟨c, rest, e, -, -, rfl⟩ | ⟨a, rest, -, -, hx⟩
  · exact hs
  · exact exec_keeps_inv (hs.withPending rest) hx
  · exact (hs.withPending rest).raiseError .illegal
  · exact hostAccess_keeps_inv (hs.withPending rest) hx

theorem step_sizes {s t : State} (h : step s = .next t) : t.sizes = s.sizes := by
  rcases step_cases h with ⟨-, rfl⟩ | ⟨c, rest, i, -, -, hx⟩ | ⟨c, rest, e, -, -, rfl⟩ | ⟨a, rest, -, -, hx⟩
  · rfl
  · simpa using exec_sizes hx
  · rfl
  · simpa using hostAccess_sizes hx

/-! ### The obligations -/

/-- Settles O60: each of the three kinds of step keeps the invariant, by the lemma of each update it makes. -/
theorem everyStepKeepsTheInvariant : Obligations.EveryStepKeepsTheInvariant :=
  fun _ _ hs h => ⟨step_keeps_inv hs h, step_sizes h⟩

/-- Settles O19: the operand registers are not among the fields a command writes (`exec_writes_only`). -/
theorem commandsKeepTheOperandRegisters : Obligations.CommandsKeepTheOperandRegisters := by
  intro i s t hx
  obtain ⟨_, _, _, _, _, _, rfl⟩ := exec_writes_only hx
  exact ⟨rfl, rfl, rfl, rfl, rfl⟩

/-- Settles O20: by the cases of a command (`exec_res`); the host's write is the ignored write of a register. -/
theorem resIsWrittenByThreeCommands : Obligations.ResIsWrittenByThreeCommands :=
  ⟨fun _ _ _ hx hne => (exec_res hx).resolve_left hne, fun _ _ _ hp => step_of_regWrite (r := .res) (by decide) hp⟩

/-- Settles O21: the two frames of a command (`exec_wmAt`, `exec_bmAt`), read at an address. -/
theorem memoriesAreWrittenByTheirCommands : Obligations.MemoriesAreWrittenByTheirCommands :=
  fun _ _ _ hx => ⟨fun hi => congrFun (exec_wmAt hx hi), fun hi => congrFun (exec_bmAt hx hi)⟩

/-- Settles O22: a command word that is no INIT, or that comes to a configured core, leaves both (`exec_table_cfg`), and so
does every access but reset (`hostAccess_table_cfg`). -/
theorem tableAndEndiannessAreWriteOnce : Obligations.TableAndEndiannessAreWriteOnce := by
  intro s t a rest hp h ha hguard
  rcases step_cases h with ⟨hp', -⟩ | ⟨c, rest', i, hp', hd, hx⟩ | ⟨c, rest', e, -, -, rfl⟩ | ⟨a', rest', hp', -, hx⟩
  · rw [hp] at hp'; cases hp'
  · rw [hp] at hp'; cases hp'
    exact exec_table_cfg (s := s.withPending rest) hx (hguard.imp_right fun hno e hi => hno c e rfl (hi ▸ hd))
  · exact ⟨rfl, rfl⟩
  · rw [hp] at hp'; cases hp'
    exact hostAccess_table_cfg (s := s.withPending rest) hx ha

/-- Settles O33: the two folds have the same step (`hashStep_congr`). -/
theorem hashReadsItsOwnRegion : Obligations.HashReadsItsOwnRegion := by
  intro T U k string h
  rw [hashBytes, hashBytes, hashStep_congr h]

/-- Settles O40: the two loops take equal steps from every CipherState (`cipherWords_congr`). -/
theorem cipherReadsRegionFour : Obligations.CipherReadsRegionFour :=
  fun _ _ dir ws _ h => cipherWords_congr h dir ws _

/-- Settles O7: the action placed is a CMD write of the word. -/
theorem stepAfterWithFetchWord : Obligations.StepAfterWithFetchWord := by
  intro s w i h
  calc step (s.withFetchWord 32 w) = command (BitVec.ofNat 32 (w % 2 ^ 32)) s := step_of_cmdWrite rfl
    _ = exec i s := command_of_decode_ok (decode_of_decodeTableWord h) s

/-- Settles O55: the two layouts, then one register at each offset. -/
theorem readOnlyRegisters : Obligations.ReadOnlyRegisters := by
  refine ⟨Status.toNat_word, Cfg.toNat_word, ?reads, ?ignored⟩
  case reads =>
    rintro s offset rest hp (rfl | rfl | rfl | rfl)
    · exact step_of_regRead (r := .cmd) hp
    · exact step_of_regRead (r := .status) hp
    · exact step_of_regRead (r := .cfg) hp
    · exact step_of_regRead (r := .res) hp
  case ignored =>
    rintro s offset v rest hp (rfl | rfl | rfl)
    · exact step_of_regWrite (r := .status) (by decide) hp
    · exact step_of_regWrite (r := .cfg) (by decide) hp
    · exact step_of_regWrite (r := .res) (by decide) hp

/-- Settles O58: the fields of `State.applyReset` and of `State.reset`. -/
theorem resetLeavesTheSpecifiedValues : Obligations.ResetLeavesTheSpecifiedValues := by
  refine ⟨fun s rest hp => ⟨_, step_of_reset hp, ?_⟩, ?_⟩
  · exact ⟨Cfg.word_unconfigured, Status.word_clear, rfl, rfl, rfl, rfl, rfl, rfl, fun _ => ⟨rfl, rfl, rfl⟩, rfl⟩
  · exact ⟨Cfg.word_unconfigured, Status.word_clear, rfl, rfl, rfl, rfl⟩

/-- Settles O59: the reset state is cleared, and its sizes are legal. -/
theorem resetMeetsTheInvariant : Obligations.ResetMeetsTheInvariant :=
  State.Inv.of_cleared rfl rfl rfl rfl rfl rfl

end Sys2Proof.Machine
end

section
/-! The statements of 20_memory.md: which accesses of the host the interface gives a meaning, what each of them does and
leaves, and the two conversions between bytes and words. -/

namespace Sys2Proof.Machine

/-! ### Every command answers a next state (R126, R149) -/

theorem execInit_answers (e : Endian) (s : State) : ∃ t, execInit e s = .next t := by
  unfold execInit
  split_ifs
  all_goals exact ⟨_, rfl⟩

theorem execHash_answers (kind : Nat) (absent : Bool) (s : State) : ∃ t, execHash kind absent s = .next t := by
  unfold execHash
  split
  · exact ⟨_, rfl⟩
  · split
    · exact ⟨_, rfl⟩
    · split_ifs
      all_goals exact ⟨_, rfl⟩

theorem singleCommand_answers (dir : Direction) (s : State) : ∃ t, singleCommand dir s = .next t := by
  unfold singleCommand
  split_ifs
  all_goals exact ⟨_, rfl⟩

theorem wordCommand_answers (dir : Direction) (absent : Bool) (s : State) :
    ∃ t, wordCommand dir absent s = .next t := by
  unfold wordCommand
  split_ifs
  all_goals exact ⟨_, rfl⟩

theorem byteCommand_answers (dir : Direction) (absent : Bool) (s : State) :
    ∃ t, byteCommand dir absent s = .next t := by
  unfold byteCommand
  split_ifs
  all_goals exact ⟨_, rfl⟩

theorem bufferCommand_answers (dir : Direction) (absent : Bool) (s : State) :
    ∃ t, bufferCommand dir absent s = .next t := by
  unfold bufferCommand
  split_ifs
  all_goals exact ⟨_, rfl⟩

theorem exec_answers (i : Instr) (s : State) : ∃ t, exec i s = .next t := by
  cases i with
  | init e => exact execInit_answers e s
  | hash kind absent => exact execHash_answers kind absent s
  | enc1 | dec1 => exact singleCommand_answers _ s
  | encw absent | decw absent => exact wordCommand_answers _ absent s
  | encb absent | decb absent => exact byteCommand_answers _ absent s
  | encbuf absent | decbuf absent => exact bufferCommand_answers _ absent s

/-- R129: a CMD write of any word, legal or not, answers a next state. -/
theorem command_answers (c : Word) (s : State) : ∃ t, command c s = .next t := by
  unfold command
  split
  · exact exec_answers _ s
  · exact ⟨_, rfl⟩

/-! ### The interface (R36 to R39) -/

/-- R36: the offsets of the registers are the multiples of 4 up to 0x20. -/
theorem Reg.exists_offset_eq {offset : Nat} : (∃ r : Reg, offset = r.offset) ↔ offset % 4 = 0 ∧ offset ≤ 0x20 := by
  constructor
  · rintro ⟨r, rfl⟩
    cases r <;> decide
  · rintro ⟨hmod, hle⟩
    obtain ⟨n, rfl⟩ : ∃ n, offset = 4 * n := Nat.dvd_of_mod_eq_zero hmod
    have hn : n ≤ 8 := by omega
    interval_cases n
    exacts [⟨.cmd, rfl⟩, ⟨.status, rfl⟩, ⟨.cfg, rfl⟩, ⟨.key, rfl⟩, ⟨.val, rfl⟩, ⟨.src, rfl⟩, ⟨.dst, rfl⟩, ⟨.len, rfl⟩,
      ⟨.res, rfl⟩]

/-- R36: a register access names no register exactly when it is outside the REG space. -/
theorem regAccess_error_iff {offset width : Nat} :
    (∃ e, regAccess offset width = .error e) ↔ ¬ (width = 32 ∧ offset % 4 = 0 ∧ offset ≤ 0x20) := by
  have hok : (∃ r, regAccess offset width = .ok r) ↔ width = 32 ∧ offset % 4 = 0 ∧ offset ≤ 0x20 := by
    simp only [regAccess_eq_ok, exists_and_left, Reg.exists_offset_eq]
  rw [← hok]
  cases regAccess offset width <;> simp

/-- A guarded access is refused exactly when its guard holds. -/
theorem guard_refused_iff {c : Prop} [Decidable c] {e : Refusal} {t : State} :
    (∃ r, (if c then .refused e else .next t : Host.Outcome State Fault Refusal) = .refused r) ↔ c := by
  by_cases hc : c <;> simp [hc]

/-- R36 to R39, R139: an access is refused exactly outside the interface. -/
theorem hostAccess_refused_iff {a : HostAction} {s : State} :
    (∃ r, hostAccess a s = .refused r) ↔ a.inInterface s = false := by
  cases a with
  | regRead offset width | regWrite offset width v =>
    rw [HostAction.inInterface, decide_eq_false_iff_not, ← regAccess_error_iff]
    cases h : regAccess offset width <;> simp [hostAccess, h]
  | tromRead i =>
    by_cases hi : i < 1280
    · cases hr : s.cfg.rdy <;> simp [hostAccess, HostAction.inInterface, tableLength, hi, Nat.not_le.mpr hi, hr]
    · simp [hostAccess, HostAction.inInterface, tableLength, hi, Nat.not_lt.mp hi]
  | tromWrite i v =>
    rw [hostAccess, guard_refused_iff, HostAction.inInterface, decide_eq_false_iff_not, Nat.not_lt, tableLength]
  | wmRead i | wmWrite i v | bmRead i | bmWrite i v =>
    rw [hostAccess, guard_refused_iff, HostAction.inInterface, decide_eq_false_iff_not, Nat.not_lt]
  | reset => simp [hostAccess, HostAction.inInterface]

/-- R129: a CMD write is inside the interface, whatever its word, and is never refused. -/
theorem perform_refused_iff {a : HostAction} {s : State} :
    (∃ r, perform a s = .refused r) ↔ a.inInterface s = false := by
  cases hc : commandWord? a with
  | some c =>
    obtain ⟨t, ht⟩ := command_answers c s
    obtain rfl := commandWord?_eq_some.mp hc
    rw [perform_eq_command hc, ht]
    simp [HostAction.inInterface]
  | none => rw [perform_eq_hostAccess hc, hostAccess_refused_iff]

theorem step_refused_iff {s : State} {a : HostAction} {rest : List HostAction} (hp : s.pending = a :: rest) :
    (∃ r, step s = .refused r) ↔ a.inInterface (s.withPending rest) = false := by
  rw [step_of_pending hp, perform_refused_iff]

/-- A step that answers a next state performed an action of the interface. -/
theorem inInterface_of_step {s t : State} {a : HostAction} {rest : List HostAction} (hp : s.pending = a :: rest)
    (hx : step s = .next t) : a.inInterface (s.withPending rest) = true := by
  rw [← Bool.not_eq_false, ← step_refused_iff hp, hx]
  rintro ⟨r, hr⟩
  cases hr

/-! ### The host's accesses to the table and the memories, as steps (R37 to R39) -/

section
variable {s : State} {i : Nat} {rest : List HostAction}

theorem step_of_tromRead (hp : s.pending = .tromRead i :: rest) (hi : i < tableLength) (hr : s.cfg.rdy = true) :
    step s = .next ((s.withPending rest).reply (s.tableAt i)) := by
  have hrdy : ¬ (!(s.withPending rest).cfg.rdy) = true := by simp [hr]
  rw [step_of_pending hp, perform_eq_hostAccess rfl, hostAccess, if_neg (Nat.not_le.mpr hi), if_neg hrdy]
  rfl

theorem step_of_tromWrite {v : Word} (hp : s.pending = .tromWrite i v :: rest) (hi : i < tableLength) :
    step s = .next (s.withPending rest) := by
  rw [step_of_pending hp, perform_eq_hostAccess rfl, hostAccess, if_neg (Nat.not_le.mpr hi)]

theorem step_of_wmRead (hp : s.pending = .wmRead i :: rest) (hi : i < s.sizes.wmWords) :
    step s = .next ((s.withPending rest).reply (s.wmAt i)) := by
  rw [step_of_pending hp, perform_eq_hostAccess rfl]
  exact if_neg (Nat.not_le.mpr hi)

theorem step_of_wmWrite {v : Word} (hp : s.pending = .wmWrite i v :: rest) (hi : i < s.sizes.wmWords) :
    step s = .next ((s.withPending rest).writeWords i [v]) := by
  rw [step_of_pending hp, perform_eq_hostAccess rfl]
  exact if_neg (Nat.not_le.mpr hi)

theorem step_of_bmRead (hp : s.pending = .bmRead i :: rest) (hi : i < s.sizes.bmBytes) :
    step s = .next ((s.withPending rest).reply ((s.bmAt i).setWidth 32)) := by
  rw [step_of_pending hp, perform_eq_hostAccess rfl]
  exact if_neg (Nat.not_le.mpr hi)

theorem step_of_bmWrite {v : Byte} (hp : s.pending = .bmWrite i v :: rest) (hi : i < s.sizes.bmBytes) :
    step s = .next ((s.withPending rest).writeBytes i [v]) := by
  rw [step_of_pending hp, perform_eq_hostAccess rfl]
  exact if_neg (Nat.not_le.mpr hi)

end

/-- R38: a write of one word stores it in that element and no other. -/
theorem State.wmAt_writeWords_singleton (s : State) (i : Nat) (v : Word) (b : Nat) :
    (s.writeWords i [v]).wmAt b = if b = i then v else s.wmAt b := by
  split_ifs with hb
  · subst hb
    exact s.wmAt_writeWords_inside b 0 [v] (by simp)
  · exact s.wmAt_writeWords_outside i b [v] (by simp; omega)

/-- R39: a write of one byte stores it at that address and no other. -/
theorem State.bmAt_writeBytes_singleton (s : State) (i : Nat) (v : Byte) (b : Nat) :
    (s.writeBytes i [v]).bmAt b = if b = i then v else s.bmAt b := by
  split_ifs with hb
  · subst hb
    exact s.bmAt_writeBytes_inside b 0 [v] (by simp)
  · exact s.bmAt_writeBytes_outside i b [v] (by simp; omega)

/-! ### What a host read and a host write leave (R49) -/

theorem hostAccess_of_step {s t : State} {a : HostAction} {rest : List HostAction} (hp : s.pending = a :: rest)
    (ha : commandWord? a = none) (hx : step s = .next t) : hostAccess a (s.withPending rest) = .next t := by
  rw [← perform_eq_hostAccess ha, ← step_of_pending hp, hx]

theorem commandWord?_of_isRead {a : HostAction} (h : a.isRead = true) : commandWord? a = none := by
  cases a with
  | regWrite offset width v => cases h
  | _ => rfl

/-- A host read only adds its datum to the transcript. -/
theorem hostAccess_of_isRead {a : HostAction} {s t : State} (ha : a.isRead = true) (hx : hostAccess a s = .next t) :
    ∃ v, t = s.reply v := by
  rcases hostAccess_cases hx with ⟨o, r, -, -, rfl⟩ | ⟨o, r, v, rfl, -, -⟩ | ⟨j, -, -, -, rfl⟩ | ⟨j, v, rfl, -, -⟩ |
    ⟨j, -, -, rfl⟩ | ⟨j, v, rfl, -, -⟩ | ⟨b, -, -, rfl⟩ | ⟨b, v, rfl, -, -⟩ | ⟨rfl, -⟩
  · exact ⟨_, rfl⟩
  · cases ha
  · exact ⟨_, rfl⟩
  · cases ha
  · exact ⟨_, rfl⟩
  · cases ha
  · exact ⟨_, rfl⟩
  · cases ha
  · cases ha

/-- A step that writes an offset other than CMD's writes the register there (R36). -/
theorem writeReg_of_step {s t : State} {offset width : Nat} {v : Word} {rest : List HostAction}
    (hp : s.pending = .regWrite offset width v :: rest) (hne : offset ≠ 0) (hx : step s = .next t) :
    ∃ r : Reg, offset = r.offset ∧ t = (s.withPending rest).writeReg r v := by
  have hin := inInterface_of_step hp hx
  obtain ⟨rfl, hoffset⟩ := of_decide_eq_true hin
  obtain ⟨r, rfl⟩ := Reg.exists_offset_eq.mpr hoffset
  have hr : r ≠ .cmd := fun h => hne (h ▸ rfl)
  rw [step_of_regWrite hr hp] at hx
  cases hx
  exact ⟨r, rfl, rfl⟩

/-- A register write reaches no field but the five operand registers (R36). -/
theorem State.writeReg_frame (s : State) (r : Reg) (v : Word) :
    s.writeReg r v = { s with
      key := (s.writeReg r v).key
      val := (s.writeReg r v).val
      src := (s.writeReg r v).src
      dst := (s.writeReg r v).dst
      len := (s.writeReg r v).len } := by
  cases r <;> rfl

/-- An operand register keeps its value, or is the one written (R36). -/
theorem State.readReg_writeReg_operand (s : State) (r : Reg) (v : Word) {q : Reg}
    (hq : q ∈ [Reg.key, .val, .src, .dst, .len]) :
    (s.writeReg r v).readReg q = s.readReg q ∨ r.offset = q.offset ∧ (s.writeReg r v).readReg q = v := by
  by_cases h : q = r
  · subst h
    exact .inr ⟨rfl, s.readReg_writeReg_self v hq⟩
  · exact .inl (s.readReg_writeReg_ne v h)

@[simp] theorem State.readReg_withPending (s : State) (l : List HostAction) (r : Reg) :
    (s.withPending l).readReg r = s.readReg r := by
  cases r <;> rfl

/-- R36: an operand register reads back what the host wrote to it. -/
theorem operand_reads_back {s : State} {r : Reg} {v : Word} {rest : List HostAction}
    (hr : r ∈ [Reg.key, .val, .src, .dst, .len])
    (hp : s.pending = .regWrite r.offset 32 v :: .regRead r.offset 32 :: rest) :
    ∃ t u, step s = .next t ∧ step t = .next u ∧ u.replies = s.replies ++ [v] ∧ u.pending = rest := by
  have hcmd : r ≠ .cmd := by
    rintro rfl
    exact absurd hr (by decide)
  refine ⟨_, _, step_of_regWrite hcmd hp, step_of_regRead (r := r) (rest := rest) (by simp), ?replies, by simp⟩
  case replies => simp [State.readReg_writeReg_self _ v hr]

/-! ### Bytes and words (R42, R43) -/

/-- A byte placed above a word adds its multiple. -/
theorem toNat_or_byte_shiftLeft {x : Word} {k : Nat} (b : Byte) (hx : x.toNat < 2 ^ k) (hk : k ≤ 24) :
    (x ||| (b.setWidth 32 <<< k)).toNat = x.toNat + b.toNat * 2 ^ k := by
  have hfits : b.toNat * 2 ^ k < 2 ^ 32 :=
    calc b.toNat * 2 ^ k < 2 ^ 8 * 2 ^ k := Nat.mul_lt_mul_of_pos_right b.isLt (Nat.two_pow_pos k)
      _ ≤ 2 ^ 8 * 2 ^ 24 := Nat.mul_le_mul_left _ (Nat.pow_le_pow_right (by decide) hk)
  rw [BitVec.toNat_or, BitVec.toNat_shiftLeft, BitVec.toNat_setWidth_of_le (by decide), Nat.shiftLeft_eq,
    Nat.mod_eq_of_lt hfits, Nat.or_comm, Nat.mul_comm, ← Nat.two_pow_add_eq_or_of_lt hx, Nat.add_comm]

/-- R42: the first byte of a little-endian word is its lowest. -/
theorem toNat_bytesToWord_little (b0 b1 b2 b3 : Byte) : (bytesToWord .little b0 b1 b2 b3).toNat =
    b0.toNat + b1.toNat * 2 ^ 8 + b2.toNat * 2 ^ 16 + b3.toNat * 2 ^ 24 := by
  have low8 : (b0.setWidth 32).toNat = b0.toNat := BitVec.toNat_setWidth_of_le (by decide)
  have low16 := toNat_or_byte_shiftLeft (x := b0.setWidth 32) (k := 8) b1 (by omega) (by decide)
  have low24 := toNat_or_byte_shiftLeft (x := b0.setWidth 32 ||| b1.setWidth 32 <<< 8) (k := 16) b2 (by omega)
    (by decide)
  rw [bytesToWord, toNat_or_byte_shiftLeft b3 (by omega) (by decide), low24, low16, low8]

/-- R42: the big-endian word is the little-endian word of the bytes in reverse order. -/
theorem bytesToWord_big (b0 b1 b2 b3 : Byte) : bytesToWord .big b0 b1 b2 b3 = bytesToWord .little b3 b2 b1 b0 := by
  rw [bytesToWord, bytesToWord, BitVec.or_comm, BitVec.or_comm (_ ||| _) (b2.setWidth 32 <<< 8),
    BitVec.or_comm (b0.setWidth 32 <<< 24), ← BitVec.or_assoc, ← BitVec.or_assoc]

/-- R43, R42: the emitted bytes read little-endian are the word. -/
theorem bytesToWord_little_extract (w : Word) :
    bytesToWord .little (w.extractLsb' 0 8) (w.extractLsb' 8 8) (w.extractLsb' 16 8) (w.extractLsb' 24 8) = w := by
  apply BitVec.eq_of_toNat_eq
  have hw : w.toNat < 2 ^ 32 := w.isLt
  simp only [toNat_bytesToWord_little, BitVec.extractLsb'_toNat, Nat.shiftRight_eq_div_pow]
  omega

/-! ### The obligations -/

/-- Settles O10: by the cases of an action (`perform_refused_iff`); the type of faults is empty. -/
theorem stepIsRefusedExactlyOutsideTheInterface : Obligations.StepIsRefusedExactlyOutsideTheInterface := by
  refine ⟨fun _ f => (nomatch f), fun s => ?_⟩
  cases hp : s.pending with
  | nil => simp [step, hp]
  | cons a rest =>
    rw [step_refused_iff hp]
    constructor
    · exact fun h => ⟨a, rest, rfl, h⟩
    · rintro ⟨a', rest', heq, h⟩
      cases heq
      exact h

/-- Settles O44: the two words in numbers, the big-endian one being the little-endian one of the reversed bytes. -/
theorem bytesToWordHonoursEndianness : Obligations.BytesToWordHonoursEndianness := by
  intro b0 b1 b2 b3
  refine ⟨toNat_bytesToWord_little b0 b1 b2 b3, ?_⟩
  rw [bytesToWord_big, toNat_bytesToWord_little]
  omega

/-- Settles O45: the four bytes are the word's fields of 8 bits, in numbers its digits to the base 256. -/
theorem wordToBytesIsLittleEndian : Obligations.WordToBytesIsLittleEndian := by
  intro w
  have hw : w.toNat < 2 ^ 32 := w.isLt
  refine ⟨_, _, _, _, rfl, ?_, ?_, ?_, ?_, bytesToWord_little_extract w⟩
  all_goals rw [BitVec.extractLsb'_toNat, Nat.shiftRight_eq_div_pow]
  all_goals omega

/-- Settles O53: a read only replies (`hostAccess_of_isRead`), and a write that is no CMD write is the write of a register
or of one element (`writeReg_of_step`, `step_of_wmWrite`, `step_of_bmWrite`). -/
theorem onlyCmdWritesHaveSideEffects : Obligations.OnlyCmdWritesHaveSideEffects := by
  intro s t a rest hp hx
  have hin := inInterface_of_step hp hx
  refine ⟨?read, ?regWrite, ?tromWrite, ?wmWrite, ?bmWrite⟩
  case read =>
    intro ha
    exact hostAccess_of_isRead ha (hostAccess_of_step hp (commandWord?_of_isRead ha) hx)
  case regWrite =>
    rintro offset width v rfl hne
    obtain ⟨r, rfl, rfl⟩ := writeReg_of_step hp hne hx
    have hoperand (q : Reg) := (s.withPending rest).readReg_writeReg_operand r v (q := q)
    refine ⟨(s.withPending rest).writeReg_frame r v, ?_⟩
    exact ⟨hoperand .key (by decide), hoperand .val (by decide), hoperand .src (by decide), hoperand .dst (by decide),
      hoperand .len (by decide)⟩
  case tromWrite =>
    rintro i v rfl
    rw [step_of_tromWrite hp (of_decide_eq_true hin)] at hx
    cases hx
    rfl
  case wmWrite =>
    rintro i v rfl
    rw [step_of_wmWrite hp (of_decide_eq_true hin)] at hx
    cases hx
    exact ⟨rfl, State.wmAt_writeWords_singleton _ i v⟩
  case bmWrite =>
    rintro i v rfl
    rw [step_of_bmWrite hp (of_decide_eq_true hin)] at hx
    cases hx
    exact ⟨rfl, State.bmAt_writeBytes_singleton _ i v⟩

/-- Settles O54: the five offsets are those of the operand registers (`operand_reads_back`). -/
theorem operandRegistersReadBack : Obligations.OperandRegistersReadBack := by
  rintro s offset v rest (rfl | rfl | rfl | rfl | rfl) hp
  · exact operand_reads_back (r := .key) (by decide) hp
  · exact operand_reads_back (r := .val) (by decide) hp
  · exact operand_reads_back (r := .src) (by decide) hp
  · exact operand_reads_back (r := .dst) (by decide) hp
  · exact operand_reads_back (r := .len) (by decide) hp

/-- Settles O56: the two accesses inside the table, and the refusals from `step_refused_iff`. -/
theorem tromWindow : Obligations.TromWindow := by
  intro s i v rest
  refine ⟨fun hp hi => step_of_tromRead hp (Nat.lt_succ_of_le hi), ?unbuilt,
    fun hp hi => step_of_tromWrite hp (Nat.lt_succ_of_le hi), ?outside⟩
  case unbuilt =>
    intro hp hr
    exact (step_refused_iff hp).mpr (by simp [HostAction.inInterface, hr])
  case outside =>
    rintro (hp | hp) hi
    all_goals
      have hnot : ¬ i < 1280 := Nat.not_lt.mpr hi
      exact (step_refused_iff hp).mpr (by simp [HostAction.inInterface, hnot])

/-- Settles O57: the four accesses inside the memories, and the refusals from `step_refused_iff`. -/
theorem memoryWindows : Obligations.MemoryWindows := by
  refine ⟨fun s i v rest => ⟨step_of_wmRead, fun hp hi => ⟨_, step_of_wmWrite hp hi, rfl, ?wm⟩, ?wmOutside⟩,
    fun s b v rest => ⟨step_of_bmRead, fun hp hb => ⟨_, step_of_bmWrite hp hb, rfl, ?bm⟩, ?bmOutside⟩⟩
  case wm => exact State.wmAt_writeWords_singleton _ i v
  case bm => exact State.bmAt_writeBytes_singleton _ b v
  case wmOutside =>
    rintro (hp | hp) hi
    all_goals exact (step_refused_iff hp).mpr (decide_eq_false (Nat.not_lt.mpr hi))
  case bmOutside =>
    rintro (hp | hp) hb
    all_goals exact (step_refused_iff hp).mpr (decide_eq_false (Nat.not_lt.mpr hb))

end Sys2Proof.Machine
end

section
/-! The statements of 30_encoding.md: the two round trips of the decoder and the encoder, which words are illegal, and the
registers a command does not read. -/

namespace Sys2Proof

open Machine (toNat_append_eq_add)

/-! ### The fields of a command word (R53) -/

theorem endField_eq_iff {c : Word} {e : Endian} : endField c = e ↔ c.getLsbD 16 = decide (e = .big) := by
  unfold endField
  cases c.getLsbD 16 <;> cases e <;> simp

/-- The format CMD32 in numbers (R53). -/
theorem toNat_packCommand (op : BitVec 4) (kind : Byte) (endian : Endian) (absent : Bool) :
    (packCommand op kind endian absent).toNat =
      (if absent = true then 2 ^ 17 else 0) + (if endian = .big then 2 ^ 16 else 0) + kind.toNat * 2 ^ 8 + op.toNat := by
  rw [packCommand]
  simp only [toNat_append_eq_add]
  cases absent <;> cases endian <;> simp [endianBit] <;> omega

/-- A word is made of its fields and of nothing else (R53). Both sides are compared as numbers, each field of a word being a
quotient and a remainder by powers of 2. -/
theorem eq_packCommand_iff {c : Word} {op : BitVec 4} {kind : Byte} {endian : Endian} {absent : Bool} :
    c = packCommand op kind endian absent ↔ opField c = op ∧ reservedZero c = true ∧ c.extractLsb' 8 8 = kind ∧
      endField c = endian ∧ absField c = absent := by
  have hop := op.isLt
  have hkind := kind.isLt
  simp only [endField_eq_iff, absField, opField, reservedZero, Bool.and_eq_true, beq_iff_eq, ← BitVec.toNat_inj,
    BitVec.extractLsb'_toNat, Nat.shiftRight_eq_div_pow, BitVec.getLsbD, Nat.testBit_eq_decide_div_mod_eq,
    toNat_packCommand]
  cases endian <;> cases absent <;> simp <;> omega

/-! ### The rows of the opcode map (R59) -/

/-- The OP value of a row (R54, R59). -/
def Op.code : Op → BitVec 4
  | .init => 0x1
  | .hash => 0x2
  | .enc1 => 0x4
  | .dec1 => 0x5
  | .encw => 0x6
  | .decw => 0x7
  | .encb => 0x8
  | .decb => 0x9
  | .encbuf => 0xA
  | .decbuf => 0xB

/-- Only HASH uses KIND (R53). -/
def Op.usesKind (op : Op) : Bool := op == .hash

/-- Only INIT uses END (R53). -/
def Op.usesEnd (op : Op) : Bool := op == .init

/-- INIT, ENC1 and DEC1 do not use ABS (R53). -/
def Op.usesAbs (op : Op) : Bool := !(op == .init || op == .enc1 || op == .dec1)

/-- What R62 asks of a legal word of a row: its OP, the reserved bits 0, and every field the command does not use 0. -/
structure Op.Fits (op : Op) (c : Word) : Prop where
  code : opField c = op.code
  reserved : reservedZero c = true
  kind : op.usesKind = false → c.extractLsb' 8 8 = 0
  endian : op.usesEnd = false → endField c = .little
  absent : op.usesAbs = false → absField c = false

/-- The match word of a row has the row's OP and 0 in every other field. -/
theorem matchWord_eq_packCommand :
    ∀ r ∈ opcodeRows, r.matchWord = packCommand r.op.code 0 .little false := by decide

/-- The mask of a row keeps OP, the reserved bits and the fields the command does not use, and drops the others. -/
theorem mask_fields : ∀ r ∈ opcodeRows,
    r.mask.extractLsb' 0 4 = .allOnes 4 ∧ r.mask.extractLsb' 4 4 = .allOnes 4 ∧
    r.mask.extractLsb' 18 14 = .allOnes 14 ∧ r.mask.extractLsb' 8 8 = (if r.op.usesKind then 0 else .allOnes 8) ∧
    r.mask.getLsbD 16 = !r.op.usesEnd ∧ r.mask.getLsbD 17 = !r.op.usesAbs := by decide

theorem Op.fits_iff {op : Op} {c : Word} : op.Fits c ↔ opField c = op.code ∧ reservedZero c = true ∧
    (op.usesKind = false → c.extractLsb' 8 8 = 0) ∧ (op.usesEnd = false → endField c = .little) ∧
    (op.usesAbs = false → absField c = false) :=
  ⟨fun ⟨hcode, hres, hkind, hend, habs⟩ => ⟨hcode, hres, hkind, hend, habs⟩,
    fun ⟨hcode, hres, hkind, hend, habs⟩ => ⟨hcode, hres, hkind, hend, habs⟩⟩

/-- A row selects exactly the words that fit it: R59's mask and match, field by field. -/
theorem selects_iff_fits {r : OpcodeRow} (hr : r ∈ opcodeRows) {c : Word} : r.selects c = true ↔ r.op.Fits c := by
  obtain ⟨hop, hlow, hhigh, hkind, hend, habs⟩ := mask_fields r hr
  have hop' : opField (c &&& r.mask) = opField c := by
    rw [opField, BitVec.extractLsb'_and, hop, BitVec.and_allOnes, opField]
  have hres' : reservedZero (c &&& r.mask) = reservedZero c := by
    simp only [reservedZero, BitVec.extractLsb'_and, hlow, hhigh, BitVec.and_allOnes]
  have hkind' : (c &&& r.mask).extractLsb' 8 8 = 0 ↔ (r.op.usesKind = false → c.extractLsb' 8 8 = 0) := by
    rw [BitVec.extractLsb'_and, hkind]
    cases r.op.usesKind
    · simp only [Bool.false_eq_true, if_false, BitVec.and_allOnes, forall_const]
    · simp
  have hend' : endField (c &&& r.mask) = .little ↔ (r.op.usesEnd = false → endField c = .little) := by
    rw [endField_eq_iff, endField_eq_iff, BitVec.getLsbD_and, hend]
    cases r.op.usesEnd <;> simp
  have habs' : absField (c &&& r.mask) = false ↔ (r.op.usesAbs = false → absField c = false) := by
    rw [absField, absField, BitVec.getLsbD_and, habs]
    cases r.op.usesAbs <;> simp
  rw [OpcodeRow.selects, beq_iff_eq, matchWord_eq_packCommand r hr, eq_packCommand_iff, hop', hres', hkind', hend', habs',
    Op.fits_iff]

theorem row_eq_of_code_eq : ∀ r ∈ opcodeRows, ∀ q ∈ opcodeRows, r.op.code = q.op.code → r = q := by decide

theorem exists_row (op : Op) : ∃ r ∈ opcodeRows, r.op = op := by
  cases op <;> decide

/-- R59: the OP values of the rows differ, so a word selects one row at most. -/
theorem row_unique {c : Word} {r q : OpcodeRow} (hr : r ∈ opcodeRows) (hq : q ∈ opcodeRows)
    (hrc : r.selects c = true) (hqc : q.selects c = true) : r = q := by
  have hcode : r.op.code = q.op.code :=
    ((selects_iff_fits hr).mp hrc).code.symm.trans ((selects_iff_fits hq).mp hqc).code
  exact row_eq_of_code_eq r hr q hq hcode

/-! ### The decoder and the encoder -/

/-- R65: a word that selects a row decodes to the row's command, wherever the row stands in the map. -/
theorem decode_of_selects {c : Word} {r : OpcodeRow} (hr : r ∈ opcodeRows) (h : r.selects c = true) :
    decode c = .ok (operandsOf c r.op) := by
  unfold decode
  split
  · next q hq =>
    have hqc : q.selects c = true := List.find?_some (p := (OpcodeRow.selects · c)) hq
    rw [row_unique hr (List.mem_of_find?_eq_some hq) h hqc]
  · next hnone => exact absurd h (List.find?_eq_none.mp hnone r hr)

theorem decode_of_fits {c : Word} {op : Op} (h : op.Fits c) : decode c = .ok (operandsOf c op) := by
  obtain ⟨r, hr, rfl⟩ := exists_row op
  exact decode_of_selects hr ((selects_iff_fits hr).mpr h)

/-- R62, R65: a word decodes to a command exactly when it fits a row and the command's operands are the word's fields. -/
theorem decode_eq_ok_iff {c : Word} {i : Instr} : decode c = .ok i ↔ ∃ op : Op, op.Fits c ∧ operandsOf c op = i := by
  constructor
  · intro h
    obtain ⟨r, hr, hsel, hi⟩ := decode_eq_ok h
    exact ⟨r.op, (selects_iff_fits hr).mp hsel, hi⟩
  · rintro ⟨op, hfit, rfl⟩
    exact decode_of_fits hfit

/-- R62: a word is illegal exactly when it fits no row. -/
theorem decode_error_iff {c : Word} : (∃ e, decode c = .error e) ↔ ∀ op : Op, ¬ op.Fits c := by
  constructor
  · rintro ⟨e, he⟩ op hfit
    rw [decode_of_fits hfit] at he
    cases he
  · intro h
    cases hd : decode c with
    | error e => exact ⟨e, rfl⟩
    | ok i =>
      obtain ⟨op, hfit, -⟩ := decode_eq_ok_iff.mp hd
      exact absurd hfit (h op)

open Laws.SelectsItsRow in
/-- R59: the word of a command selects the row of its own mnemonic and no other. -/
theorem selects_encode : ∀ i : Instr, Statement i
  | .init endian => init endian
  | .hash kind absent => hash kind absent
  | .enc1 => enc1
  | .dec1 => dec1
  | .encw absent => encw absent
  | .decw absent => decw absent
  | .encb absent => encb absent
  | .decb absent => decb absent
  | .encbuf absent => encbuf absent
  | .decbuf absent => decbuf absent

@[simp] theorem endField_packCommand (op : BitVec 4) (kind : Byte) (endian : Endian) (absent : Bool) :
    endField (packCommand op kind endian absent) = endian := by
  obtain ⟨-, -, -, hend, -⟩ := eq_packCommand_iff.mp (rfl : packCommand op kind endian absent = _)
  exact hend

@[simp] theorem absField_packCommand (op : BitVec 4) (kind : Byte) (endian : Endian) (absent : Bool) :
    absField (packCommand op kind endian absent) = absent := by
  obtain ⟨-, -, -, -, habs⟩ := eq_packCommand_iff.mp (rfl : packCommand op kind endian absent = _)
  exact habs

@[simp] theorem kindField_packCommand (op : BitVec 4) (kind : Byte) (endian : Endian) (absent : Bool) :
    kindField (packCommand op kind endian absent) = kind.toNat := by
  obtain ⟨-, -, hkind, -, -⟩ := eq_packCommand_iff.mp (rfl : packCommand op kind endian absent = _)
  rw [kindField, hkind]

/-- Each operand is read from the field it was packed in (R60). KIND must fit its eight bits. -/
theorem operandsOf_encode {i : Instr} (h : i.wellFormed = true) : operandsOf (encode i) i.op = i := by
  cases i with
  | hash kind absent =>
    have hkind : kind < 256 := of_decide_eq_true h
    simp [encode, Instr.op, operandsOf, Nat.mod_eq_of_lt hkind]
  | init endian => simp [encode, Instr.op, operandsOf]
  | enc1 | dec1 => rfl
  | encw absent | decw absent | encb absent | decb absent | encbuf absent | decbuf absent =>
    simp [encode, Instr.op, operandsOf]

/-- The command that a fitting word stands for is encoded by the same fields, those it does not use being 0 (R58). -/
theorem encode_operandsOf {op : Op} {c : Word} (h : op.Fits c) : encode (operandsOf c op) = c := by
  obtain ⟨hcode, hres, hkind, hend, habs⟩ := h
  symm
  cases op with
  | init => exact eq_packCommand_iff.mpr ⟨hcode, hres, hkind rfl, rfl, habs rfl⟩
  | hash =>
    have hkindField : c.extractLsb' 8 8 = BitVec.ofNat 8 (kindField c) := by
      rw [kindField, BitVec.ofNat_toNat, BitVec.setWidth_eq]
    exact eq_packCommand_iff.mpr ⟨hcode, hres, hkindField, hend rfl, rfl⟩
  | enc1 | dec1 => exact eq_packCommand_iff.mpr ⟨hcode, hres, hkind rfl, hend rfl, habs rfl⟩
  | encw | decw | encb | decb | encbuf | decbuf =>
    exact eq_packCommand_iff.mpr ⟨hcode, hres, hkind rfl, hend rfl, rfl⟩

/-- Settles O1: the word of `i` selects the row of `i` (`selects_encode`), so it decodes to the operands of that row, which
are those of `i` (`operandsOf_encode`). -/
theorem decodeOfEncodeIsTheCommand : Obligations.DecodeOfEncodeIsTheCommand := by
  intro i hwf
  obtain ⟨r, hr, hop⟩ := exists_row i.op
  calc decode (encode i) = .ok (operandsOf (encode i) r.op) := decode_of_selects hr ((selects_encode i r hr).mpr hop)
    _ = .ok i := by rw [hop, operandsOf_encode hwf]

/-- Settles O2: a word that decodes fits a row, and then it is the word of its command (`encode_operandsOf`). -/
theorem encodeOfDecodeIsTheWord : Obligations.EncodeOfDecodeIsTheWord := by
  intro c i hd
  obtain ⟨op, hfit, rfl⟩ := decode_eq_ok_iff.mp hd
  exact ⟨operandsOf_wellFormed c op, encode_operandsOf hfit⟩

/-- Settles O3: two rows that select one word have its OP, and no two rows share an OP (`row_unique`). -/
theorem opcodeRowsAreDisjoint : Obligations.OpcodeRowsAreDisjoint :=
  fun _ _ _ => row_unique

/-- Settles O5: each sample is the word of its command, so it decodes by the round trip. -/
theorem sampleWordsDecode : Obligations.SampleWordsDecode :=
  have roundTrip := decodeOfEncodeIsTheCommand
  ⟨roundTrip (.init .big) rfl, roundTrip (.hash 3 true) rfl, roundTrip .enc1 rfl, roundTrip .dec1 rfl,
    roundTrip (.encw true) rfl, roundTrip (.decw false) rfl, roundTrip (.encb false) rfl, roundTrip (.decb true) rfl,
    roundTrip (.encbuf false) rfl, roundTrip (.decbuf true) rfl⟩

/-! ### Illegal words (R62) -/

/-- The OP values outside the opcode map (R54, R62). -/
def unknownCodes : List (BitVec 4) := [0x0, 0x3, 0xC, 0xD, 0xE, 0xF]

/-- Every OP value is that of a row or one of the six unknown ones (R54). -/
theorem code_or_unknown : ∀ o : BitVec 4, o ∈ unknownCodes ∨ ∃ r ∈ opcodeRows, o = r.op.code := by decide

theorem code_not_unknown (op : Op) : op.code ∉ unknownCodes := by
  cases op <;> decide

theorem code_inj {op op' : Op} (h : op.code = op'.code) : op = op' := by
  obtain ⟨r, hr, rfl⟩ := exists_row op
  obtain ⟨q, hq, rfl⟩ := exists_row op'
  rw [row_eq_of_code_eq r hr q hq h]

/-- R62: a word whose OP is that of a row is illegal exactly when it does not fit that row. -/
theorem decode_error_iff_of_code {c : Word} {op : Op} (hcode : opField c = op.code) :
    (∃ e, decode c = .error e) ↔ reservedZero c = false ∨ (c.extractLsb' 8 8 ≠ 0 ∧ op.usesKind = false) ∨
      (endField c ≠ .little ∧ op.usesEnd = false) ∨ (absField c = true ∧ op.usesAbs = false) := by
  rw [decode_error_iff]
  constructor
  · intro h
    by_contra hno
    simp only [not_or, not_and', Bool.not_eq_false, ne_eq, not_not, Bool.not_eq_true] at hno
    obtain ⟨hres, hkind, hend, habs⟩ := hno
    exact h op ⟨hcode, hres, hkind, hend, habs⟩
  · intro hbad op' hfit
    obtain rfl : op = op' := code_inj (hcode.symm.trans hfit.code)
    obtain ⟨-, hres, hkind, hend, habs⟩ := hfit
    rcases hbad with hr | ⟨hk, hu⟩ | ⟨he, hu⟩ | ⟨ha, hu⟩
    · rw [hres] at hr; cases hr
    · exact hk (hkind hu)
    · exact he (hend hu)
    · rw [habs hu] at ha; cases ha

/-- R62: a word whose OP is in no row is illegal. -/
theorem decode_error_of_unknown {c : Word} (h : opField c ∈ unknownCodes) : ∃ e, decode c = .error e :=
  decode_error_iff.mpr fun op hfit => code_not_unknown op (hfit.code ▸ h)

theorem usesKind_eq_false_iff {op : Op} : op.usesKind = false ↔ op.code ≠ 0x2 := by
  cases op <;> decide

theorem usesEnd_eq_false_iff {op : Op} : op.usesEnd = false ↔ op.code ≠ 0x1 := by
  cases op <;> decide

theorem usesAbs_eq_false_iff {op : Op} : op.usesAbs = false ↔ op.code = 0x1 ∨ op.code = 0x4 ∨ op.code = 0x5 := by
  cases op <;> decide

theorem reservedZero_eq_false_iff {c : Word} :
    reservedZero c = false ↔ c.extractLsb' 4 4 ≠ 0 ∨ c.extractLsb' 18 14 ≠ 0 := by
  rw [reservedZero, Bool.and_eq_false_iff, beq_eq_false_iff_ne, beq_eq_false_iff_ne]

theorem endField_ne_little_iff {c : Word} : endField c ≠ .little ↔ c.getLsbD 16 = true := by
  rw [ne_eq, endField_eq_iff]
  simp

/-- R62, the three causes written out over OP and the fields. -/
theorem decode_error_iff_defect (c : Word) : (∃ e, decode c = .error e) ↔
    (opField c = 0x0 ∨ opField c = 0x3 ∨ opField c = 0xC ∨ opField c = 0xD ∨ opField c = 0xE ∨ opField c = 0xF ∨
      c.extractLsb' 4 4 ≠ 0 ∨ c.extractLsb' 18 14 ≠ 0 ∨
      (c.extractLsb' 8 8 ≠ 0 ∧ opField c ≠ 0x2) ∨
      (c.getLsbD 16 = true ∧ opField c ≠ 0x1) ∨
      (c.getLsbD 17 = true ∧ (opField c = 0x1 ∨ opField c = 0x4 ∨ opField c = 0x5))) := by
  have hmem : opField c ∈ unknownCodes ↔ opField c = 0x0 ∨ opField c = 0x3 ∨ opField c = 0xC ∨ opField c = 0xD ∨
      opField c = 0xE ∨ opField c = 0xF := by
    simp only [unknownCodes, List.mem_cons, List.not_mem_nil, or_false]
  rcases code_or_unknown (opField c) with hunknown | ⟨r, -, hcode⟩
  · refine iff_of_true (decode_error_of_unknown hunknown) ?_
    simp only [← or_assoc] at hmem ⊢
    simp only [hmem.mp hunknown, true_or]
  · have hknown := mt hmem.mpr (hcode ▸ code_not_unknown r.op)
    simp only [not_or] at hknown
    rw [decode_error_iff_of_code hcode, reservedZero_eq_false_iff, usesKind_eq_false_iff, usesEnd_eq_false_iff,
      usesAbs_eq_false_iff, endField_ne_little_iff, absField, ← hcode]
    simp only [hknown, false_or, or_assoc]

end Sys2Proof

namespace Sys2Proof.Machine

/-- R62, R124: an illegal word raises ILLEGAL, whatever its defect. -/
theorem command_of_decode_error {c : Word} {e : Illegal} (h : decode c = .error e) (s : State) :
    command c s = .next (s.raiseError .illegal) := by
  rw [command, h, illegalCommand]

/-- Settles O4: a word is illegal exactly when it fits no row, which `decode_error_iff_defect` reads field by field, and its
CMD write is the error report of R129. -/
theorem illegalWordsRaiseIllegal : Obligations.IllegalWordsRaiseIllegal := by
  refine ⟨decode_error_iff_defect, (decode_error_iff_defect _).mpr ?zero, (decode_error_iff_defect _).mpr ?ones,
    fun s c rest e hp hd => ?step, rfl⟩
  case zero => exact .inl rfl
  case ones => exact .inr (.inr (.inr (.inr (.inr (.inl rfl)))))
  case step =>
    calc step s = command c (s.withPending rest) := step_of_cmdWrite hp
      _ = .next ((s.withPending rest).raiseError .illegal) := command_of_decode_error hd _

/-! ### The registers a command does not read (R57, R60)

The checks and the result of each command are made of the registers it reads, so after a change of the others every branch
of the command is the same branch, and its result carries the change. -/

/-- The outcome with its next state changed by `u`. -/
def onNext (u : State → State) : Host.Outcome State Fault Refusal → Host.Outcome State Fault Refusal
  | .next t => .next (u t)
  | .fault r => .fault r
  | .refused r => .refused r

theorem onNext_ite (u : State → State) (p : Prop) [Decidable p] (x y : Host.Outcome State Fault Refusal) :
    onNext u (if p then x else y) = if p then onNext u x else onNext u y :=
  apply_ite (onNext u) p x y

section Unread
variable (s : State) (k v a b n : Word) (dir : Direction)

theorem execInit_unread (e : Endian) :
    execInit e { s with key := k, val := v, src := a, dst := b, len := n } =
      onNext (fun t => { t with key := k, val := v, src := a, dst := b, len := n }) (execInit e s) := by
  rw [execInit, execInit, onNext_ite]
  rfl

theorem execHash_unread (kind : Nat) (absent : Bool) :
    execHash kind absent { s with key := k, val := v, dst := b } =
      onNext (fun t => { t with key := k, val := v, dst := b }) (execHash kind absent s) := by
  rw [execHash, execHash, onNext_ite]
  cases hashKind? kind with
  | none => rfl
  | some j =>
    simp only [onNext_ite]
    rfl

theorem singleCommand_unread :
    singleCommand dir { s with src := a, dst := b, len := n } =
      onNext (fun t => { t with src := a, dst := b, len := n }) (singleCommand dir s) := by
  rw [singleCommand, singleCommand, onNext_ite]
  rfl

theorem wordCommand_unread :
    wordCommand dir false { s with val := v } = onNext (fun t => { t with val := v }) (wordCommand dir false s) := by
  rw [wordCommand, wordCommand, onNext_ite, onNext_ite, onNext_ite]
  rfl

theorem byteCommand_unread :
    byteCommand dir false { s with val := v } = onNext (fun t => { t with val := v }) (byteCommand dir false s) := by
  rw [byteCommand, byteCommand, onNext_ite, onNext_ite, onNext_ite]
  rfl

theorem bufferCommand_unread :
    bufferCommand dir false { s with val := v, dst := b } =
      onNext (fun t => { t with val := v, dst := b }) (bufferCommand dir false s) := by
  rw [bufferCommand, bufferCommand, onNext_ite, onNext_ite, onNext_ite]
  rfl

end Unread

/-- R57, R93, R111: with ABS = 1 the three kinds of cipher command do the same, and read nothing but CFG.RDY. -/
theorem exec_absent {i : Instr} (s : State)
    (hi : i = .encw true ∨ i = .decw true ∨ i = .encb true ∨ i = .decb true ∨ i = .encbuf true ∨ i = .decbuf true) :
    exec i s = if s.cfg.rdy then .next (s.complete true) else .next (s.raiseError .state) := by
  rcases hi with rfl | rfl | rfl | rfl | rfl | rfl
  all_goals
    simp only [exec, execEncw, execDecw, execEncb, execDecb, execEncbuf, execDecbuf, wordCommand, byteCommand,
      bufferCommand]
    cases s.cfg.rdy <;> rfl

theorem exec_absent_unread {i : Instr} (s : State) (k v a b n : Word)
    (hi : i = .encw true ∨ i = .decw true ∨ i = .encb true ∨ i = .decb true ∨ i = .encbuf true ∨ i = .decbuf true) :
    exec i { s with key := k, val := v, src := a, dst := b, len := n } =
      onNext (fun t => { t with key := k, val := v, src := a, dst := b, len := n }) (exec i s) := by
  rw [exec_absent _ hi, exec_absent _ hi, onNext_ite]
  rfl

/-- Settles O23: each group of commands by the lemma of the operation they share. -/
theorem unreadOperandsDoNotMatter : Obligations.UnreadOperandsDoNotMatter := by
  intro s t k v a b n
  refine ⟨fun kind absent h => ?hash, fun i hi h => ?single, fun i hi h => ?fromSrcToDst, fun i hi h => ?inPlace,
    fun i hi h => ?absent, fun e h => ?init⟩
  case hash => exact (execHash_unread s k v b kind absent).trans (congrArg _ h)
  case single =>
    rcases hi with rfl | rfl
    all_goals exact (singleCommand_unread s a b n _).trans (congrArg _ h)
  case fromSrcToDst =>
    rcases hi with rfl | rfl | rfl | rfl
    iterate 2 exact (wordCommand_unread s v _).trans (congrArg _ h)
    iterate 2 exact (byteCommand_unread s v _).trans (congrArg _ h)
  case inPlace =>
    rcases hi with rfl | rfl
    all_goals exact (bufferCommand_unread s v b _).trans (congrArg _ h)
  case absent => exact (exec_absent_unread s k v a b n hi).trans (congrArg _ h)
  case init => exact (execInit_unread s k v a b n e).trans (congrArg _ h)

end Sys2Proof.Machine
end

section
/-! The statements of 40_table_generator.md: the draws of the generator, the two halves of an entry, the table as a function
of its index, and what INIT leaves. -/

namespace Sys2Proof.Machine

/-! ### The generator (R69, R70, R73) -/

/-- R73: a step ends below the modulus. -/
theorem lcgNext_lt (lcg : Nat) : lcgNext lcg < 0x2AAAAB := Nat.mod_lt _ (by decide)

theorem drawn_succ_lt (n : Nat) : drawn (n + 1) < 0x2AAAAB := lcgNext_lt (drawn n)

/-- The start value is below the modulus too, and so is every state of the generator. -/
theorem drawn_lt : ∀ n, drawn n < 0x2AAAAB
  | 0 => by decide
  | n + 1 => drawn_succ_lt n

/-- Settles O24: the recurrence is the definition, and the bounds on the products follow from the bound on the states. -/
theorem drawsFollowTheGenerator : Obligations.DrawsFollowTheGenerator := by
  refine ⟨rfl, fun n => rfl, by decide, drawn_succ_lt, fun n => ?product, fun n => ?anyProduct⟩
  case product =>
    have := drawn_succ_lt n
    omega
  case anyProduct =>
    have := drawn_lt n
    omega

/-! ### An entry (R76) -/

/-- The mask, the shift and the or of R71 put the two low halves side by side. -/
theorem tableEntry_eq_append (first second : Nat) :
    tableEntry first second = BitVec.ofNat 16 first ++ BitVec.ofNat 16 second := by
  have low (n : Nat) : BitVec.ofNat 32 (n &&& 0xFFFF) = (BitVec.ofNat 16 n).setWidth 32 := by
    rw [Nat.and_two_pow_sub_one_eq_mod n 16]
    exact BitVec.eq_of_toNat_eq (by simp)
  rw [tableEntry, low, low, BitVec.append_def, BitVec.shiftLeftZeroExtend_eq, BitVec.setWidth'_eq]

/-- Settles O26: an entry is its two halves in a row (`tableEntry_eq_append`). -/
theorem entryLayoutIsTwoHalves : Obligations.EntryLayoutIsTwoHalves := by
  refine ⟨fun first second => ?halves, fun n => ?bits, by decide⟩
  case halves =>
    rw [tableEntry_eq_append]
    exact ⟨BitVec.extractLsb'_append_eq_left, BitVec.extractLsb'_append_eq_right⟩
  case bits => exact (drawn_succ_lt n).trans (by decide)

/-! ### The table (R71, R72) -/

/-- The entry of iteration `k` of the generator, counted from 0: draws number `2k+1` and `2k+2` (R71). -/
def drawnEntry (k : Nat) : Word := tableEntry (drawn (2 * k + 1)) (drawn (2 * k + 2))

/-- From iteration `k` on, each index in the order given takes the entry of its iteration. -/
theorem fillInOrder_drawn (index : Nat → Nat) (n k : Nat) :
    fillInOrder (drawn (2 * k)) ((List.range' k n).map index) =
      (List.range' k n).map fun j => (index j, drawnEntry j) := by
  induction n generalizing k with
  | zero => rfl
  | succ n ih =>
    rw [List.range'_succ, List.map_cons, List.map_cons, fillInOrder]
    exact congrArg _ (ih (k + 1))

/-- Two nested loops are one loop over the number of the iteration. -/
theorem flatMap_range_eq_map {α : Type} (f : Nat → Nat → α) (n m : Nat) :
    ((List.range n).flatMap fun a => (List.range m).map (f a)) = (List.range (n * m)).map fun k => f (k / m) (k % m) := by
  induction n with
  | zero => simp
  | succ n ih =>
    have last : (List.range m).map (f n) = (List.range m).map fun b => f ((n * m + b) / m) ((n * m + b) % m) := by
      refine List.map_congr_left fun b hb => ?_
      have hb : b < m := List.mem_range.mp hb
      rw [Nat.mul_comm, Nat.mul_add_div (by omega), Nat.mul_add_mod, Nat.div_eq_of_lt hb, Nat.mod_eq_of_lt hb,
        Nat.add_zero]
    rw [List.range_succ, List.flatMap_append, List.flatMap_singleton, ih, last, Nat.succ_mul, List.range_add,
      List.map_append, List.map_map]
    rfl

/-- The loops of R71, each write being that of its own iteration `5*index1 + i`. -/
theorem fillInOrder_writeOrder :
    fillInOrder lcgStart writeOrder =
      (List.range 256).flatMap fun index1 =>
        (List.range 5).map fun i => (index1 + i * 256, drawnEntry (5 * index1 + i)) := by
  calc fillInOrder lcgStart writeOrder
      = fillInOrder (drawn (2 * 0)) ((List.range' 0 (256 * 5)).map fun k => k / 5 + k % 5 * 256) := by
        rw [writeOrder, flatMap_range_eq_map fun index1 i => index1 + i * 256, List.range_eq_range']; rfl
    _ = (List.range (256 * 5)).map fun k => (k / 5 + k % 5 * 256, drawnEntry k) := by
        rw [fillInOrder_drawn, List.range_eq_range']
    _ = (List.range (256 * 5)).map fun k => (k / 5 + k % 5 * 256, drawnEntry (5 * (k / 5) + k % 5)) := by
        simp only [Nat.div_add_mod]
    _ = _ := (flatMap_range_eq_map (fun index1 i => (index1 + i * 256, drawnEntry (5 * index1 + i))) 256 5).symm

/-- Of the five writes of one `index1`, one falls into each region (R16). -/
theorem filter_region_writes {index1 region : Nat} (h1 : index1 < 256) (hr : region < 5) :
    ((List.range 5).map fun i => (index1 + i * 256, drawnEntry (5 * index1 + i))).filter
        (fun e => e.1 / 256 == region) =
      [(index1 + region * 256, drawnEntry (5 * index1 + region))] := by
  have inRegion (i : Nat) : (index1 + i * 256) / 256 = i := by omega
  have only : (List.range 5).filter (· == region) = [region] := by
    interval_cases region
    all_goals rfl
  simp only [List.filter_map, Function.comp_def, inRegion, only, List.map_cons, List.map_nil]

/-- The table as a function of its index: entry `a` is that of iteration `5 * (a mod 256) + a / 256` (R71, R72). -/
theorem buildTable_eq_map :
    buildTable = (List.range 1280).map fun a => (a, drawnEntry (5 * (a % 256) + a / 256)) := by
  have region {r : Nat} (hr : r < 5) :
      (fillInOrder lcgStart writeOrder).filter (fun e => e.1 / 256 == r) =
        (List.range 256).map fun index1 => (index1 + r * 256, drawnEntry (5 * index1 + r)) := by
    rw [fillInOrder_writeOrder, List.filter_flatMap, List.map_eq_flatMap]
    exact List.flatMap_congr fun index1 h1 => filter_region_writes (List.mem_range.mp h1) hr
  calc buildTable
      = (List.range 5).flatMap fun r =>
          (List.range 256).map fun index1 => (index1 + r * 256, drawnEntry (5 * index1 + r)) :=
        List.flatMap_congr fun r hr => region (List.mem_range.mp hr)
    _ = (List.range 1280).map fun a => (a % 256 + a / 256 * 256, drawnEntry (5 * (a % 256) + a / 256)) :=
        flatMap_range_eq_map (fun r index1 => (index1 + r * 256, drawnEntry (5 * index1 + r))) 5 256
    _ = _ := by simp only [Nat.mod_add_div']

/-- A memory that lists the values of a function holds them at the addresses listed. -/
theorem Memory.entry?_map_of_mem {α : Type} (f : Nat → α) {l : List Nat} {a : Nat} (h : a ∈ l) :
    Memory.entry? (l.map fun b => (b, f b)) a = some (f a) := by
  induction l with
  | nil => cases h
  | cons b l ih =>
    rw [List.map_cons, Memory.entry?]
    split_ifs with hab
    · rw [hab]
    · exact ih ((List.mem_cons.mp h).resolve_left hab)

theorem entry?_buildTable {a : Nat} (h : a < 1280) :
    Memory.entry? buildTable a = some (drawnEntry (5 * (a % 256) + a / 256)) := by
  rw [buildTable_eq_map]
  exact Memory.entry?_map_of_mem (fun a => drawnEntry (5 * (a % 256) + a / 256)) (List.mem_range.mpr h)

/-- A core with the built table reads every entry of it as the entry of its iteration. -/
theorem State.tableAt_of_built {s : State} (hs : s.table = buildTable) {a : Nat} (h : a < 1280) :
    s.tableAt a = drawnEntry (5 * (a % 256) + a / 256) := by
  rw [State.tableAt, hs, entry?_buildTable h, Option.getD_some]

/-- Settles O25: both clauses read the table as a function of its index (`buildTable_eq_map`). -/
theorem tableEntriesComeFromTheirDraws : Obligations.TableEntriesComeFromTheirDraws := by
  refine ⟨?indices, fun index1 i h1 hi => ?entry⟩
  case indices => rw [buildTable_eq_map, List.map_map]; exact List.map_id _
  case entry =>
    have low : (index1 + i * 256) % 256 = index1 := by omega
    have high : (index1 + i * 256) / 256 = i := by omega
    rw [entry?_buildTable (by omega), low, high, drawnEntry, tableEntry]

/-! ### INIT (R74, R75) -/

/-- Settles O27: the check of R74 passes, and the command installs the table and completes. -/
theorem initBuildsTheContext : Obligations.InitBuildsTheContext := by
  intro s e h
  rw [exec, execInit, h]
  rfl

/-- R75: the spot values. -/
theorem tableAt_spotValues {s : State} (hs : s.table = buildTable) :
    [s.tableAt 0, s.tableAt 1, s.tableAt 255, s.tableAt 256, s.tableAt 512, s.tableAt 768, s.tableAt 1024,
      s.tableAt 1279] =
      [0x55C636E2, 0x02BE0170, 0x708C9EEC, 0x76F8C1B1, 0x3DF6965D, 0x15F261D3, 0x193AA698, 0x7303286C] := by
  iterate 8 rw [State.tableAt_of_built hs (by decide)]
  decide +kernel

/-- Settles O28: INIT leaves the built table in both cores (`initBuildsTheContext`), and the spot values are those of any
core that holds it. -/
theorem tableIsTheSameForEveryInstance : Obligations.TableIsTheSameForEveryInstance := by
  intro s q e f hs hq
  exact ⟨_, _, initBuildsTheContext s e hs, initBuildsTheContext q f hq, rfl, tableAt_spotValues rfl⟩

end Sys2Proof.Machine
end

section
/-! The statements of 41_hash.md: the fold, the strings that hash alike, and the recurrence that HASH runs over its
string. -/

namespace Sys2Proof.Machine

/-! ### The fold (R77) -/

/-- R77: in a register of eight bits the subtraction of the fold does not wrap, for a letter is at least 0x61. -/
theorem toNat_foldUpper (b : Byte) :
    (foldUpper b).toNat = if 0x61 ≤ b.toNat ∧ b.toNat ≤ 0x7A then b.toNat - 0x20 else b.toNat := by
  rw [foldUpper]
  split_ifs with hletter
  · exact BitVec.toNat_sub_of_le (BitVec.le_def.mpr (by simp; omega))
  · rfl

/-- Settles O29: the two branches of the fold, in numbers. -/
theorem foldIsAsciiUpperCase : Obligations.FoldIsAsciiUpperCase := toNat_foldUpper

/-- A folded byte is no lower-case letter, so a second fold leaves it. -/
theorem foldUpper_foldUpper (b : Byte) : foldUpper (foldUpper b) = foldUpper b := by
  have hfold := toNat_foldUpper b
  have hnot : ¬(0x61 ≤ (foldUpper b).toNat ∧ (foldUpper b).toNat ≤ 0x7A) := by
    split_ifs at hfold <;> omega
  exact if_neg hnot

/-- R79: a step of the hash reads its byte only through the fold. -/
theorem hashStep_foldUpper (T : Nat → Word) (k : HashKind) (acc : HashAcc) (b : Byte) :
    hashStep T k acc (foldUpper b) = hashStep T k acc b := by
  rw [hashStep, hashStep, foldUpper_foldUpper]

/-- R84: folding the string beforehand leaves its hash. -/
theorem hashBytes_map_foldUpper (T : Nat → Word) (k : HashKind) (string : List Byte) :
    hashBytes T k (string.map foldUpper) = hashBytes T k string := by
  simp only [hashBytes, List.foldl_map, hashStep_foldUpper]

/-- R84: equal folds, equal hashes. -/
theorem hashBytes_eq_of_map_foldUpper {xs ys : List Byte} (h : xs.map foldUpper = ys.map foldUpper) (T : Nat → Word)
    (k : HashKind) : hashBytes T k xs = hashBytes T k ys := by
  rw [← hashBytes_map_foldUpper T k xs, h, hashBytes_map_foldUpper]

/-! ### The hash over the built table (R84) -/

/-- Entry `a` of the built table, as a function of its index. -/
def builtEntry (a : Nat) : Word := drawnEntry (5 * (a % 256) + a / 256)

/-- A core with the built table hashes by the entries of the generator: the four regions of the kinds lie inside it. -/
theorem hashBytes_of_built {s : State} (hs : s.table = buildTable) (k : HashKind) (string : List Byte) :
    hashBytes s.tableAt k string = hashBytes builtEntry k string := by
  refine hashReadsItsOwnRegion s.tableAt builtEntry k string fun i _ hi => ?_
  have hregion : k.value * 256 ≤ 768 := k.regionBase_le
  exact State.tableAt_of_built hs (by omega)

/-- R84: the four hashes of "FOO". -/
theorem hashBytes_builtEntry_FOO :
    hashBytes builtEntry .tableOffset [0x46, 0x4F, 0x4F] = 0xE5568E3C ∧
    hashBytes builtEntry .nameA [0x46, 0x4F, 0x4F] = 0x63FA8F9F ∧
    hashBytes builtEntry .nameB [0x46, 0x4F, 0x4F] = 0x312D4839 ∧
    hashBytes builtEntry .fileKey [0x46, 0x4F, 0x4F] = 0x9402326A := by decide +kernel

/-- Settles O31: a hash is the hash of the folded string (`hashBytes_eq_of_map_foldUpper`), and the three strings of R84
fold to "FOO". -/
theorem hashIsCaseInsensitive : Obligations.HashIsCaseInsensitive := by
  refine ⟨fun T k xs ys h => hashBytes_eq_of_map_foldUpper h T k, fun s hs string hstring => ?_⟩
  have hfold : string.map foldUpper = List.map foldUpper [0x46, 0x4F, 0x4F] := by
    rcases hstring with rfl | rfl | rfl <;> decide
  simp only [hashBytes_of_built hs, hashBytes_eq_of_map_foldUpper hfold]
  exact hashBytes_builtEntry_FOO

/-! ### HASH (R78 to R81) -/

/-- R81: a HASH whose checks pass leaves the hash of its string in RES and completes. -/
theorem exec_hash_of_checks {s : State} (k : HashKind) (hr : s.cfg.rdy = true)
    (hfit : s.src.toNat + s.len.toNat ≤ s.sizes.bmBytes) :
    exec (.hash k.value false) s =
      .next { s with res := hashBytes s.tableAt k s.inputBytes, status := ⟨.ok, false, s.status.estk⟩ } := by
  have hkind : hashKind? k.value = some k := hashKind?_eq_some.mpr rfl
  have hsrc : s.bmSrcFits = true := decide_eq_true hfit
  rw [exec, execHash, hr, hkind, hsrc]
  rfl

/-- One more byte of BM is read at the end of the sequence. -/
theorem State.readBytes_succ (s : State) (a n : Nat) : s.readBytes a (n + 1) = s.readBytes a n ++ [s.bmAt (a + n)] := by
  simp only [State.readBytes, List.range_succ, List.map_append, List.map_singleton]

/-- The accumulators after the first `j` bytes of the string (R78, R79). -/
def State.hashAccAt (s : State) (k : HashKind) (j : Nat) : HashAcc :=
  (s.readBytes s.src.toNat j).foldl (hashStep s.tableAt k) hashStart

theorem State.hashAccAt_succ (s : State) (k : HashKind) (j : Nat) :
    s.hashAccAt k (j + 1) = hashStep s.tableAt k (s.hashAccAt k j) (s.bmAt (s.src.toNat + j)) := by
  rw [State.hashAccAt, State.readBytes_succ, List.foldl_append]
  rfl

/-- Settles O30: the two sequences are the accumulators after the bytes read so far, and the hash is their last
`seed1`. -/
theorem hashComputesTheRecurrence : Obligations.HashComputesTheRecurrence := by
  intro s k hr hfit
  refine ⟨fun j => (s.hashAccAt k j).seed1, fun j => (s.hashAccAt k j).seed2, rfl, rfl, fun j _ => ?step, ?result⟩
  case step =>
    simp only [State.hashAccAt_succ]
    exact ⟨hashStep_seed1 .., hashStep_seed2 ..⟩
  case result => exact exec_hash_of_checks k hr hfit

/-! ### The empty string (R85) -/

theorem HashKind.exists_value_eq {kind : Nat} (h : kind ≤ 3) : ∃ k : HashKind, kind = k.value := by
  obtain ⟨k, hk⟩ := Option.ne_none_iff_exists'.mp (mt hashKind?_eq_none.mp (Nat.not_lt.mpr h))
  exact ⟨k, hashKind?_eq_some.mp hk⟩

/-- Settles O32: the checks pass, an empty range needing only SRC up to BM_BYTES, and no step of the hash runs. -/
theorem emptyStringHashesToTheInitialSeed : Obligations.EmptyStringHashesToTheInitialSeed := by
  intro s kind hr hkind hlen hsrc
  obtain ⟨k, rfl⟩ := HashKind.exists_value_eq hkind
  have hempty : s.inputBytes = [] := by rw [State.inputBytes, hlen]; rfl
  rw [exec_hash_of_checks k hr (by rw [hlen]; exact hsrc), hempty]
  rfl

end Sys2Proof.Machine
end

section
/-! The statements of 42_word_cipher.md: the table index and the schedule of the key, the recurrence of a direction, why the
other direction undoes it, and what ENC1, DEC1, ENCW and DECW leave. -/

namespace Sys2Proof.Machine

/-! ### The key (R87, R88) -/

/-- R87: the mask of the index is a remainder. -/
theorem lookupIndex_eq (key : Word) : lookupIndex key = 0x400 + key.toNat % 256 := by
  have hmask : (key &&& 0xFF).toNat = key.toNat % 256 := by
    rw [BitVec.toNat_and]; exact Nat.and_two_pow_sub_one_eq_mod key.toNat 8
  rw [lookupIndex, hmask]

/-- Settles O34: the bounds of region 4 (`lookupIndex_bounds`) lie below the length of the table. -/
theorem lookupIndexIsInRegionFour : Obligations.LookupIndexIsInRegionFour := by
  refine ⟨fun key => ?index, rfl⟩
  case index =>
    obtain ⟨hlow, hhigh⟩ := lookupIndex_bounds key
    exact ⟨lookupIndex_eq key, Nat.mod_eq_of_lt (by omega), hlow, hhigh⟩

/-- R88 in numbers, one operation after the other. -/
theorem toNat_nextKey (key : Word) : (nextKey key).toNat =
    (((2 ^ 32 - 1 - key.toNat) * 2 ^ 21 % 2 ^ 32 + 0x11111111) % 2 ^ 32) ||| (key.toNat / 2 ^ 11) := by
  rw [nextKey, BitVec.toNat_or, BitVec.toNat_add, BitVec.toNat_shiftLeft, BitVec.toNat_not, BitVec.toNat_ushiftRight,
    Nat.shiftLeft_eq, Nat.shiftRight_eq_div_pow]
  rfl

/-- Settles O35: the formula is `toNat_nextKey`; the examples are evaluated. -/
theorem keyScheduleArithmetic : Obligations.KeyScheduleArithmetic :=
  ⟨toNat_nextKey, by decide, by decide, by decide, by decide⟩

/-! ### The recurrence (R89 to R92) -/

/-- Settles O39: each step of the loop gives one word (`length_cryptWords`). -/
theorem cipherKeepsTheLength : Obligations.CipherKeepsTheLength := length_cryptWords

/-- The CipherState that a loop over the words leaves (R89). -/
def cipherAfter (T : Nat → Word) (dir : Direction) (c : CipherState) (ws : List Word) : CipherState :=
  ws.foldl (fun c w => (cipherStep T dir c w).2) c

section Recurrence
variable (T : Nat → Word) (dir : Direction) (c : CipherState)

@[simp] theorem cipherAfter_cons (w : Word) (ws : List Word) :
    cipherAfter T dir c (w :: ws) = cipherAfter T dir (cipherStep T dir c w).2 ws := rfl

/-- R88: the key after a loop is the key schedule, applied once for each word. -/
theorem cipherAfter_key (ws : List Word) : (cipherAfter T dir c ws).key = nextKey^[ws.length] c.key := by
  induction ws generalizing c with
  | nil => rfl
  | cons w ws ih => rw [cipherAfter_cons, ih, cipherStep_key, List.length_cons, Function.iterate_succ_apply]

/-- R90, R91: output word `i` is that of a step on input word `i`, from what the words before it leave. -/
theorem getElem?_cipherWords (ws : List Word) (i : Nat) : (cipherWords T dir c ws)[i]? =
    ws[i]?.map fun w => (cipherStep T dir (cipherAfter T dir c (ws.take i)) w).1 := by
  induction ws generalizing c i with
  | nil => rfl
  | cons w ws ih =>
    cases i with
    | zero => rfl
    | succ i => simpa using ih (cipherStep T dir c w).2 i

end Recurrence

/-- The CipherState of a call before the word at position `i` (R90, R91). -/
def stateBefore (T : Nat → Word) (dir : Direction) (ws : List Word) (key : Word) (i : Nat) : CipherState :=
  cipherAfter T dir ⟨key, initialSeed⟩ (ws.take i)

section Call
variable (T : Nat → Word) (dir : Direction) (key : Word) {ws : List Word} {i : Nat} {w : Word}

theorem stateBefore_key (hi : i ≤ ws.length) : (stateBefore T dir ws key i).key = nextKey^[i] key := by
  rw [stateBefore, cipherAfter_key, List.length_take_of_le hi]

theorem stateBefore_succ (hw : ws[i]? = some w) :
    stateBefore T dir ws key (i + 1) = (cipherStep T dir (stateBefore T dir ws key i) w).2 := by
  rw [stateBefore, List.take_add_one, hw, cipherAfter, List.foldl_append]
  rfl

theorem getD_cryptWords (hw : ws[i]? = some w) :
    (cryptWords T dir ws key).getD i 0 = (cipherStep T dir (stateBefore T dir ws key i) w).1 := by
  rw [List.getD_eq_getElem?_getD, cryptWords, getElem?_cipherWords, hw]
  rfl

end Call

/-- Settles O36: position `i` of the output is the step on input word `i` (`getD_cryptWords`), and the seeds are those of
the states before each position. -/
theorem cipherFollowsTheRecurrence : Obligations.CipherFollowsTheRecurrence := by
  intro T dir ws key
  refine ⟨fun i => (stateBefore T dir ws key i).seed, fun i => (cryptWords T dir ws key).getD i 0, rfl, ?list,
    fun i w hw => ?step⟩
  case list =>
    refine List.ext_getElem (by simp) fun i hi _ => ?_
    rw [List.getElem_map, List.getElem_range, List.getD_eq_getElem _ _ hi]
  case step =>
    obtain ⟨hi, -⟩ := List.getElem?_eq_some_iff.mp hw
    simp only [getD_cryptWords T dir key hw, stateBefore_succ T dir key hw, ← lookupIndex_eq,
      ← stateBefore_key T dir key hi.le]
    refine ⟨cipherStep_out .., ?_⟩
    cases dir with
    | encrypt => exact cipherStep_seed_encrypt ..
    | decrypt => exact cipherStep_seed_decrypt ..

/-! ### The round trip (R98) -/

/-- The other direction of the cipher (R89). -/
def Direction.inverse : Direction → Direction
  | .encrypt => .decrypt
  | .decrypt => .encrypt

/-- R92: from one state, a step of the other direction on the output of a step gives the input back and leaves the same
state, because both seeds are driven by the plaintext. -/
theorem cipherStep_inverse (T : Nat → Word) (dir : Direction) (c : CipherState) (w : Word) :
    cipherStep T dir.inverse c (cipherStep T dir c w).1 = (w, (cipherStep T dir c w).2) := by
  cases dir <;> simp only [cipherStep, Direction.inverse, plainOf, xor_cancel_right]

theorem cipherWords_inverse (T : Nat → Word) (dir : Direction) (c : CipherState) (ws : List Word) :
    cipherWords T dir.inverse c (cipherWords T dir c ws) = ws := by
  induction ws generalizing c with
  | nil => rfl
  | cons w ws ih => rw [cipherWords_cons, cipherWords_cons, cipherStep_inverse, ih]

theorem cryptWords_inverse (T : Nat → Word) (dir : Direction) (ws : List Word) (key : Word) :
    cryptWords T dir.inverse (cryptWords T dir ws key) key = ws := cipherWords_inverse ..

/-! ### The single-word form (R96, R97, R100) -/

/-- R100: the output of one word, which no direction enters. -/
theorem cryptWords_singleton (T : Nat → Word) (dir : Direction) (v k : Word) :
    cryptWords T dir [v] k = [v ^^^ (k + (0xEEEEEEEE + T (0x400 + (k &&& 0xFF).toNat)))] := rfl

theorem cryptWord_eq (T : Nat → Word) (dir : Direction) (v k : Word) :
    cryptWord T dir v k = v ^^^ (k + (0xEEEEEEEE + T (0x400 + (k &&& 0xFF).toNat))) := by
  rw [cryptWord, cryptWords_singleton, List.headD_cons]

theorem singleCommand_eq (dir dir' : Direction) (s : State) : singleCommand dir s = singleCommand dir' s := by
  rw [singleCommand, singleCommand, cryptWord_eq, cryptWord_eq]

/-- Settles O38: one word is xored with a value that depends neither on it nor on the direction (`cryptWord_eq`). -/
theorem singleWordCoincidence : Obligations.SingleWordCoincidence := by
  refine ⟨fun T dir v k => ⟨cryptWords_singleton T dir v k, ?selfInverse⟩, singleCommand_eq .encrypt .decrypt⟩
  case selfInverse => rw [cryptWord_eq, cryptWord_eq, xor_cancel_right]

theorem singleCommand_of_ready (dir : Direction) {s : State} (hr : s.cfg.rdy = true) :
    singleCommand dir s = .next ((s.writeRes (cryptWord s.tableAt dir s.val s.key)).complete false) := by
  rw [singleCommand, hr]
  rfl

/-- Settles O41: the check of R96 passes, and RES takes the one word (`cryptWord_eq`). -/
theorem singleWordCommandsWriteRes : Obligations.SingleWordCommandsWriteRes := by
  intro s i hr hi
  rcases hi with rfl | rfl
  all_goals
    refine (singleCommand_of_ready _ hr).trans ?_
    rw [cryptWord_eq]
    rfl

/-! ### ENCW and DECW (R94, R95) -/

/-- What ENCW and DECW leave when their checks pass (R94, R95). -/
def State.afterWords (s : State) (dir : Direction) : State :=
  (s.writeWords s.dst.toNat (cryptWords s.tableAt dir s.inputWords s.key)).complete false

/-- R48, R94, R95: on a configured core the range check alone decides. -/
theorem wordCommand_of_ready (dir : Direction) {s : State} (hr : s.cfg.rdy = true) :
    wordCommand dir false s =
      if s.src.toNat + s.len.toNat ≤ s.sizes.wmWords ∧ s.dst.toNat + s.len.toNat ≤ s.sizes.wmWords then
        .next (s.afterWords dir)
      else .next (s.raiseError .range) := by
  have hfits : (s.wmSrcFits && s.wmDstFits) = true ↔
      s.src.toNat + s.len.toNat ≤ s.sizes.wmWords ∧ s.dst.toNat + s.len.toNat ≤ s.sizes.wmWords := by
    simp [State.wmSrcFits, State.wmDstFits]
  rw [if_congr hfits.symm rfl rfl, wordCommand, hr]
  cases s.wmSrcFits && s.wmDstFits <;> rfl

theorem exec_words_of_ready {s : State} {i : Instr} {dir : Direction} (hr : s.cfg.rdy = true)
    (hi : (i = .encw false ∧ dir = .encrypt) ∨ (i = .decw false ∧ dir = .decrypt)) :
    exec i s =
      if s.src.toNat + s.len.toNat ≤ s.sizes.wmWords ∧ s.dst.toNat + s.len.toNat ≤ s.sizes.wmWords then
        .next (s.afterWords dir)
      else .next (s.raiseError .range) := by
  rcases hi with ⟨rfl, rfl⟩ | ⟨rfl, rfl⟩
  all_goals exact wordCommand_of_ready _ hr

theorem State.length_cryptInputWords (s : State) (dir : Direction) :
    (cryptWords s.tableAt dir s.inputWords s.key).length = s.len.toNat := by simp

/-- Settles O42: the output words are written in a row, so an element inside the row is its word and an element outside
keeps its value. -/
theorem wordCommandsWriteTheCipher : Obligations.WordCommandsWriteTheCipher := by
  intro s i dir hr hi hsrc hdst
  have hlen := s.length_cryptInputWords dir
  refine ⟨s.afterWords dir, (exec_words_of_ready hr hi).trans (if_pos ⟨hsrc, hdst⟩), fun j hj => ?inside,
    fun a ha => ?outside, rfl⟩
  case inside =>
    have hj' : j < (cryptWords s.tableAt dir s.inputWords s.key).length := hj.trans_eq hlen.symm
    rw [State.afterWords, State.wmAt_complete, State.wmAt_writeWords_inside _ _ _ _ hj']
    exact (List.getElem?_eq_getElem hj').symm
  case outside =>
    rw [State.afterWords, State.wmAt_complete]
    exact State.wmAt_writeWords_outside _ _ _ _ (hlen.symm ▸ ha)

/-- Reading a sequence where it was written gives it back. -/
theorem State.readWords_writeWords (s : State) (a : Nat) (ws : List Word) :
    (s.writeWords a ws).readWords a ws.length = ws := by
  refine List.ext_getElem (by simp) fun j _ hj => ?_
  simp only [State.readWords, List.getElem_map, List.getElem_range]
  exact s.wmAt_writeWords_inside a j ws hj

/-- R94, R95: the words read at DST after the command are the cipher of its input. -/
theorem State.readWords_afterWords (s : State) (dir : Direction) :
    (s.afterWords dir).readWords s.dst.toNat s.len.toNat = cryptWords s.tableAt dir s.inputWords s.key := by
  conv_lhs => rw [← s.length_cryptInputWords dir]
  exact s.readWords_writeWords _ _

/-- The state from which DECW reads back what ENCW wrote and writes it at `back`: the host has set SRC to the old DST. -/
def State.readingBack (s : State) (back : Word) : State :=
  { s.afterWords .encrypt with src := s.dst, dst := back }

/-- R98: DECW after ENCW leaves the words ENCW read. -/
theorem State.readWords_readingBack (s : State) (back : Word) :
    ((s.readingBack back).afterWords .decrypt).readWords back.toNat s.len.toNat = s.inputWords := by
  have hinput : (s.readingBack back).inputWords = cryptWords s.tableAt .encrypt s.inputWords s.key :=
    s.readWords_afterWords .encrypt
  calc ((s.readingBack back).afterWords .decrypt).readWords back.toNat s.len.toNat
      = cryptWords s.tableAt .decrypt (s.readingBack back).inputWords s.key :=
        (s.readingBack back).readWords_afterWords .decrypt
    _ = s.inputWords := by rw [hinput]; exact cryptWords_inverse s.tableAt .encrypt s.inputWords s.key

/-- Settles O37: the loops undo each other (`cryptWords_inverse`), and DECW takes as its input what ENCW wrote
(`State.readWords_readingBack`). -/
theorem wordRoundTrip : Obligations.WordRoundTrip := by
  refine ⟨fun T ws key => ⟨cryptWords_inverse T .encrypt ws key, cryptWords_inverse T .decrypt ws key⟩,
    fun s back hr hsrc hdst hback => ?commands⟩
  case commands =>
    refine ⟨s.afterWords .encrypt, (s.readingBack back).afterWords .decrypt, ?encw, ?decw, fun j hj => ?words⟩
    case encw => exact (exec_words_of_ready hr (.inl ⟨rfl, rfl⟩)).trans (if_pos ⟨hsrc, hdst⟩)
    case decw =>
      exact (exec_words_of_ready (s := s.readingBack back) hr (.inr ⟨rfl, rfl⟩)).trans (if_pos ⟨hdst, hback⟩)
    case words => exact List.map_inj_left.mp (s.readWords_readingBack back) j (List.mem_range.mpr hj)

/-- R99: an empty input is written as nothing. -/
theorem State.afterWords_of_empty {s : State} (hlen : s.len = 0) (dir : Direction) :
    s.afterWords dir = s.complete false := by
  have hinput : s.inputWords = [] := by rw [State.inputWords, hlen]; rfl
  rw [State.afterWords, hinput]
  rfl

/-- Settles O43: with LEN = 0 the range check is that of SRC and DST alone, and nothing is written
(`State.afterWords_of_empty`). -/
theorem emptyWordSequenceCompletes : Obligations.EmptyWordSequenceCompletes := by
  intro s i hr hi hlen
  obtain ⟨dir, hdir⟩ : ∃ dir : Direction, (i = .encw false ∧ dir = .encrypt) ∨ (i = .decw false ∧ dir = .decrypt) := by
    rcases hi with hi | hi
    · exact ⟨.encrypt, .inl ⟨hi, rfl⟩⟩
    · exact ⟨.decrypt, .inr ⟨hi, rfl⟩⟩
  have hend (start : Nat) : start + s.len.toNat = start := by rw [hlen]; rfl
  rw [exec_words_of_ready hr hdir, State.afterWords_of_empty hlen, hend, hend]
  rfl

end Sys2Proof.Machine
end

section
/-! The statements of 43_byte_codec.md: the output of the codec byte by byte, what reading it back with the
little-endian setting gives, how the two settings differ, and what the byte commands leave in BM. -/

namespace Sys2Proof.Machine

/-! ### The two regions of an input (R103) -/

section Regions
variable {src : List Byte}

@[simp] theorem wholeWords_cons (b0 b1 b2 b3 : Byte) (rest : List Byte) :
    wholeWords (b0 :: b1 :: b2 :: b3 :: rest) = b0 :: b1 :: b2 :: b3 :: wholeWords rest := by
  have hcut : rest.length + 4 - (rest.length + 4) % 4 = rest.length - rest.length % 4 + 4 := by omega
  simp only [wholeWords, List.length_cons, Nat.add_assoc, Nat.reduceAdd, hcut, List.take_succ_cons]

theorem length_remainder (src : List Byte) : (remainder src).length = src.length % 4 := by
  rw [remainder, List.length_drop]
  omega

theorem remainder_of_short (h : src.length < 4) : remainder src = src := by
  rw [remainder, Nat.mod_eq_of_lt h, Nat.sub_self, List.drop_zero]

/-- R105: a last incomplete group gives no word. -/
theorem groupWords_of_short (e : Endian) (h : src.length < 4) : groupWords e src = [] :=
  List.eq_nil_of_length_eq_zero ((length_groupWords e src).trans (Nat.div_eq_of_lt h))

end Regions

/-- R105: the words of the whole-word region are the words of the input, whose remainder gives none. -/
theorem groupWords_wholeWords (e : Endian) : ∀ src : List Byte, groupWords e (wholeWords src) = groupWords e src
  | [] | [_] | [_, _] | [_, _, _] => rfl
  | b0 :: b1 :: b2 :: b3 :: rest => by
    rw [wholeWords_cons, groupWords_cons, groupWords_cons, groupWords_wholeWords e rest]

/-- R105: word `j` is read from the input bytes 4j to 4j+3. -/
theorem getElem?_groupWords (e : Endian) {b0 b1 b2 b3 : Byte} : ∀ {src : List Byte} {j : Nat},
    src[4 * j]? = some b0 → src[4 * j + 1]? = some b1 → src[4 * j + 2]? = some b2 → src[4 * j + 3]? = some b3 →
      (groupWords e src)[j]? = some (bytesToWord e b0 b1 b2 b3)
  | [], _ | [_], _ | [_, _], _ | [_, _, _], _ => fun _ _ _ h3 => by
    have hlt := (List.getElem?_eq_some_iff.mp h3).1
    simp only [List.length_cons, List.length_nil] at hlt
    omega
  | _ :: _ :: _ :: _ :: _, 0 => fun h0 h1 h2 h3 => by
    cases h0; cases h1; cases h2; cases h3; rfl
  | _ :: _ :: _ :: _ :: rest, j + 1 => fun h0 h1 h2 h3 =>
    getElem?_groupWords e (src := rest) (j := j) h0 h1 h2 h3

/-! ### The bytes of words (R42, R43, R107) -/

/-- R42, R43: the bytes of a word that was read little-endian are those it was read from. -/
theorem wordToBytes_bytesToWord_little (b0 b1 b2 b3 : Byte) :
    wordToBytes (bytesToWord .little b0 b1 b2 b3) = [b0, b1, b2, b3] := by
  have hbyte {k : Nat} {b : Byte} (h : (bytesToWord .little b0 b1 b2 b3).toNat / 2 ^ k % 2 ^ 8 = b.toNat) :
      (bytesToWord .little b0 b1 b2 b3).extractLsb' k 8 = b := by
    rw [← BitVec.toNat_inj, BitVec.extractLsb'_toNat, Nat.shiftRight_eq_div_pow, h]
  have hword := toNat_bytesToWord_little b0 b1 b2 b3
  rw [wordToBytes, hbyte (b := b0) (by omega), hbyte (b := b1) (by omega), hbyte (b := b2) (by omega),
    hbyte (b := b3) (by omega)]

/-- R42, R43: a word that was read big-endian comes out with its bytes in reverse order. -/
theorem wordToBytes_bytesToWord_big (b0 b1 b2 b3 : Byte) :
    wordToBytes (bytesToWord .big b0 b1 b2 b3) = [b3, b2, b1, b0] := by
  rw [bytesToWord_big, wordToBytes_bytesToWord_little]

/-- R118: the two settings read the same word only from a byte palindrome. -/
theorem palindrome_of_bytesToWord_eq {b0 b1 b2 b3 : Byte}
    (h : bytesToWord .little b0 b1 b2 b3 = bytesToWord .big b0 b1 b2 b3) : b0 = b3 ∧ b1 = b2 := by
  have hbytes : [b0, b1, b2, b3] = [b3, b2, b1, b0] := by
    rw [← wordToBytes_bytesToWord_little, h, wordToBytes_bytesToWord_big]
  cases hbytes
  exact ⟨rfl, rfl⟩

/-- R107: emitted byte `4j + q` is byte `q` of word `j`, counted from the least significant one. -/
theorem getElem?_flatMap_wordToBytes {ws : List Word} {j q : Nat} {c : Word} (hc : ws[j]? = some c) (hq : q < 4) :
    (ws.flatMap wordToBytes)[4 * j + q]? = some (c.extractLsb' (8 * q) 8) := by
  induction ws generalizing j with
  | nil => cases hc
  | cons w ws ih =>
    cases j with
    | zero =>
      cases hc
      match q, hq with
      | 0, _ | 1, _ | 2, _ | 3, _ => rfl
    | succ j =>
      have hindex : 4 * (j + 1) + q = 4 * j + q + 4 := by omega
      rw [hindex]
      exact ih hc

/-- R105, R107: emitted words, with fewer than four bytes after them, read little-endian are the words. -/
theorem groupWords_little_flatMap {tail : List Byte} (htail : tail.length < 4) (ws : List Word) :
    groupWords .little (ws.flatMap wordToBytes ++ tail) = ws := by
  induction ws with
  | nil => exact groupWords_of_short .little htail
  | cons w ws ih =>
    calc groupWords .little ((w :: ws).flatMap wordToBytes ++ tail)
        = bytesToWord .little (w.extractLsb' 0 8) (w.extractLsb' 8 8) (w.extractLsb' 16 8) (w.extractLsb' 24 8) ::
            groupWords .little (ws.flatMap wordToBytes ++ tail) := rfl
      _ = w :: ws := by rw [bytesToWord_little_extract, ih]

/-- R116: reading little-endian and emitting gives the whole groups back. -/
theorem flatMap_wordToBytes_groupWords_little :
    ∀ src : List Byte, (groupWords .little src).flatMap wordToBytes = wholeWords src
  | [] | [_] | [_, _] | [_, _, _] => rfl
  | b0 :: b1 :: b2 :: b3 :: rest => by
    rw [groupWords_cons, List.flatMap_cons, wordToBytes_bytesToWord_little, wholeWords_cons,
      flatMap_wordToBytes_groupWords_little rest]
    rfl

/-- R117: reading big-endian and emitting reverses each whole group. -/
theorem flatMap_wordToBytes_groupWords_big :
    ∀ src : List Byte, (groupWords .big src).flatMap wordToBytes = reverseGroups src
  | [] | [_] | [_, _] | [_, _, _] => rfl
  | b0 :: b1 :: b2 :: b3 :: rest => by
    rw [groupWords_cons, List.flatMap_cons, wordToBytes_bytesToWord_big, flatMap_wordToBytes_groupWords_big rest]
    rfl

/-! ### The output of the codec (R103 to R108) -/

section Codec
variable (T : Nat → Word) (dir : Direction) (src : List Byte) (key : Word) (e : Endian)

/-- R108: the bytes of the cipher words, then the reversed remainder. -/
theorem cryptBytes_eq : cryptBytes T dir src key e =
    (cryptWords T dir (groupWords e src) key).flatMap wordToBytes ++ (remainder src).reverse := by
  rw [← groupWords_wholeWords]
  rfl

theorem length_cipherBytes :
    ((cryptWords T dir (groupWords e src) key).flatMap wordToBytes).length = src.length - src.length % 4 := by
  rw [length_flatMap_wordToBytes, length_cryptWords, length_groupWords]
  omega

/-- R119: the part of the output after the whole words is the reversed remainder of the input. -/
theorem drop_cryptBytes :
    (cryptBytes T dir src key e).drop (src.length - src.length % 4) = (remainder src).reverse := by
  rw [cryptBytes_eq, ← length_cipherBytes T dir src key e, List.drop_left]

theorem remainder_cryptBytes : remainder (cryptBytes T dir src key e) = (remainder src).reverse := by
  rw [remainder, length_cryptBytes, drop_cryptBytes]

/-- R107: read little-endian, the output is the cipher words, whatever setting the input was read with. -/
theorem groupWords_little_cryptBytes :
    groupWords .little (cryptBytes T dir src key e) = cryptWords T dir (groupWords e src) key := by
  have htail : (remainder src).reverse.length < 4 := List.length_reverse.trans_lt (length_remainder_lt src)
  rw [cryptBytes_eq, groupWords_little_flatMap htail]

/-- R116, R117: the other direction with the little-endian setting emits the words that were read, and restores the
remainder. -/
theorem cryptBytes_inverse_little : cryptBytes T dir.inverse (cryptBytes T dir src key e) key .little =
    (groupWords e src).flatMap wordToBytes ++ remainder src := by
  rw [cryptBytes_eq, groupWords_little_cryptBytes, cryptWords_inverse, remainder_cryptBytes, List.reverse_reverse]

variable {src}

/-- R119: an input without a whole group is only reversed. -/
theorem cryptBytes_of_short (h : src.length < 4) : cryptBytes T dir src key e = src.reverse := by
  rw [cryptBytes_eq, groupWords_of_short e h, remainder_of_short h]
  rfl

/-- R118: two settings with the same output have read the same words. -/
theorem groupWords_eq_of_cryptBytes_eq {e e' : Endian}
    (h : cryptBytes T dir src key e = cryptBytes T dir src key e') : groupWords e src = groupWords e' src := by
  have hcipher : cryptWords T dir (groupWords e src) key = cryptWords T dir (groupWords e' src) key := by
    rw [← groupWords_little_cryptBytes, h, groupWords_little_cryptBytes]
  rw [← cryptWords_inverse T dir (groupWords e src) key, hcipher, cryptWords_inverse]

/-- R107, R108: the output bytes 4j to 4j+3 are cipher word `j`. -/
theorem getElem?_cryptBytes_body {j q : Nat} {c : Word} (hc : (cryptWords T dir (groupWords e src) key)[j]? = some c)
    (hq : q < 4) : (cryptBytes T dir src key e)[4 * j + q]? = some (c.extractLsb' (8 * q) 8) := by
  have hbyte := getElem?_flatMap_wordToBytes hc hq
  rw [cryptBytes_eq, List.getElem?_append_left (List.getElem?_eq_some_iff.mp hbyte).1, hbyte]

/-- R104, R119: after the words, output byte `q` is input byte `q` from the end. -/
theorem getElem?_cryptBytes_tail {q : Nat} (hq : q < src.length % 4) :
    (cryptBytes T dir src key e)[4 * (src.length / 4) + q]? = src[src.length - 1 - q]? := by
  have hstart : 4 * (src.length / 4) = src.length - src.length % 4 := by omega
  have hlen := length_remainder src
  have hindex : src.length - src.length % 4 + (src.length % 4 - 1 - q) = src.length - 1 - q := by omega
  rw [hstart, ← List.getElem?_drop, drop_cryptBytes, List.getElem?_reverse (hlen.symm ▸ hq), hlen, remainder,
    List.getElem?_drop, hindex]

end Codec

/-- Settles O46: the words are those of the groups (`getElem?_groupWords`), and the output is their cipher followed by
the reversed remainder. -/
theorem codecFollowsTheSixSteps : Obligations.CodecFollowsTheSixSteps := by
  intro T dir src key e
  refine ⟨groupWords e src, length_groupWords e src, fun j hj => ?words, fun j hj => ?body,
    fun q hq => getElem?_cryptBytes_tail T dir key e hq, length_cryptBytes T dir src key e⟩
  case words =>
    have hget {i : Nat} (hi : i < src.length) : src[i]? = some src[i] := List.getElem?_eq_getElem hi
    have h0 := hget (i := 4 * j) (by omega)
    have h1 := hget (i := 4 * j + 1) (by omega)
    have h2 := hget (i := 4 * j + 2) (by omega)
    have h3 := hget (i := 4 * j + 3) (by omega)
    exact ⟨_, _, _, _, h0, h1, h2, h3, getElem?_groupWords e h0 h1 h2 h3⟩
  case body =>
    have hj' : j < (cryptWords T dir (groupWords e src) key).length := by simpa using hj
    have hword := List.getElem?_eq_getElem hj'
    exact ⟨_, hword, fun q hq => getElem?_cryptBytes_body T dir key e hword hq⟩

/-- Settles O47: the output after the whole words (`drop_cryptBytes`), and an input that has none. -/
theorem tailIsReversedAndNotEnciphered : Obligations.TailIsReversedAndNotEnciphered :=
  fun T dir src key e => ⟨drop_cryptBytes T dir src key e, cryptBytes_of_short T dir key e⟩

/-! ### The round trips (R116, R117) -/

/-- Settles O48: decrypting emits the words that encrypting read (`cryptBytes_inverse_little`), and with one setting on
both sides these are the whole groups of the input. -/
theorem byteRoundTripLittleEndian : Obligations.ByteRoundTripLittleEndian := by
  intro T bs key
  calc cryptBytes T .decrypt (cryptBytes T .encrypt bs key .little) key .little
      = (groupWords .little bs).flatMap wordToBytes ++ remainder bs :=
        cryptBytes_inverse_little T .encrypt bs key .little
    _ = bs := by rw [flatMap_wordToBytes_groupWords_little, wholeWords_append_remainder]

/-- R117: a second run of the codec, with any settings, restores the remainder. -/
theorem drop_cryptBytes_cryptBytes (T : Nat → Word) (dir dir' : Direction) (bs : List Byte) (key : Word)
    (e e' : Endian) :
    (cryptBytes T dir' (cryptBytes T dir bs key e) key e').drop (bs.length - bs.length % 4) = remainder bs := by
  have h := drop_cryptBytes T dir' (cryptBytes T dir bs key e) key e'
  rwa [length_cryptBytes, remainder_cryptBytes, List.reverse_reverse] at h

/-- A core with the built table runs the codec by the entries of the generator: region 4 lies inside it. -/
theorem cryptBytes_of_built {s : State} (hs : s.table = buildTable) (dir : Direction) (src : List Byte) (key : Word)
    (e : Endian) : cryptBytes s.tableAt dir src key e = cryptBytes builtEntry dir src key e := by
  have hcipher (ws : List Word) : cryptWords s.tableAt dir ws key = cryptWords builtEntry dir ws key :=
    cipherReadsRegionFour s.tableAt builtEntry dir ws key fun i _ hi => State.tableAt_of_built hs (by omega)
  rw [cryptBytes_eq, cryptBytes_eq, hcipher]

/-- R117: the spec's example, encrypted and decrypted with the big-endian setting. -/
theorem cryptBytes_builtEntry_nineBytes :
    cryptBytes builtEntry .encrypt [1, 2, 3, 4, 5, 6, 7, 8, 9] 7 .big =
      [0xD6, 0x3F, 0xE6, 0x45, 0xF1, 0x1C, 0xD7, 0xF8, 0x09] ∧
    cryptBytes builtEntry .decrypt [0xD6, 0x3F, 0xE6, 0x45, 0xF1, 0x1C, 0xD7, 0xF8, 0x09] 7 .big =
      [0x97, 0xDA, 0xDB, 0x92, 0x74, 0x24, 0xB6, 0x7E, 0x09] := by decide +kernel

/-- Settles O49: decrypting emits little-endian the words that were read big-endian (`cryptBytes_inverse_little`), which
reverses each group; the example is evaluated over the entries of the generator. -/
theorem bigEndianDoesNotRoundTrip : Obligations.BigEndianDoesNotRoundTrip := by
  refine ⟨fun T bs key => ⟨?body, drop_cryptBytes_cryptBytes T .encrypt .decrypt bs key .big .big⟩,
    fun s hs => ?vectors⟩
  case body =>
    rw [← flatMap_wordToBytes_groupWords_big]
    exact cryptBytes_inverse_little T .encrypt bs key .big
  case vectors =>
    simp only [cryptBytes_of_built hs]
    exact cryptBytes_builtEntry_nineBytes

/-! ### The two settings (R118) -/

/-- R118: the spec's example under the two settings. -/
theorem cryptBytes_builtEntry_sevenBytes :
    cryptBytes builtEntry .encrypt [0x11, 0x22, 0x33, 0x44, 0xA0, 0xA1, 0xA2] 0x0000ABCD .little =
      [0x82, 0xAE, 0x3A, 0x42, 0xA2, 0xA1, 0xA0] ∧
    cryptBytes builtEntry .encrypt [0x11, 0x22, 0x33, 0x44, 0xA0, 0xA1, 0xA2] 0x0000ABCD .big =
      [0xD7, 0xBF, 0x2B, 0x17, 0xA2, 0xA1, 0xA0] := by decide +kernel

/-- Settles O50: equal ciphertexts come from equal words (`groupWords_eq_of_cryptBytes_eq`), and only a palindrome is
the same word under both settings (`palindrome_of_bytesToWord_eq`). -/
theorem endiannessChangesTheCiphertext : Obligations.EndiannessChangesTheCiphertext := by
  refine ⟨fun s hs => ?vectors, fun T src key =>
    ⟨fun j b0 b1 b2 b3 _ h0 h1 h2 h3 hpal heq => ?differ, fun hshort => ?short⟩⟩
  case vectors =>
    simp only [cryptBytes_of_built hs]
    exact cryptBytes_builtEntry_sevenBytes
  case differ =>
    have hwords := groupWords_eq_of_cryptBytes_eq T .encrypt key heq
    have hword : some (bytesToWord .little b0 b1 b2 b3) = some (bytesToWord .big b0 b1 b2 b3) := by
      rw [← getElem?_groupWords .little h0 h1 h2 h3, hwords, getElem?_groupWords .big h0 h1 h2 h3]
    exact hpal (palindrome_of_bytesToWord_eq (Option.some.inj hword))
  case short => rw [cryptBytes_of_short _ _ _ _ hshort, cryptBytes_of_short _ _ _ _ hshort]

/-! ### ENCB, DECB, ENCBUF and DECBUF (R112 to R115) -/

/-- What a byte command that writes its output at `start` leaves when its checks pass (R112 to R115). -/
def State.afterBytes (s : State) (dir : Direction) (start : Nat) : State :=
  (s.writeBytes start (s.outputBytes dir)).complete false

section AfterBytes
variable (s : State) (dir : Direction) (start : Nat)

theorem State.bmAt_afterBytes_inside {j : Nat} (hj : j < s.len.toNat) :
    some ((s.afterBytes dir start).bmAt (start + j)) = (s.outputBytes dir)[j]? := by
  have hj' : j < (s.outputBytes dir).length := hj.trans_eq (s.length_outputBytes dir).symm
  rw [State.afterBytes, State.bmAt_complete, State.bmAt_writeBytes_inside _ _ _ _ hj', List.getElem?_eq_getElem hj']

theorem State.bmAt_afterBytes_outside {a : Nat} (ha : ¬ (start ≤ a ∧ a < start + s.len.toNat)) :
    (s.afterBytes dir start).bmAt a = s.bmAt a := by
  rw [← s.length_outputBytes dir] at ha
  rw [State.afterBytes, State.bmAt_complete, State.bmAt_writeBytes_outside _ _ _ _ ha]

end AfterBytes

/-- R112, R113: the checks of ENCB and DECB pass. -/
theorem byteCommand_of_checks (dir : Direction) {s : State} (hr : s.cfg.rdy = true)
    (hsrc : s.src.toNat + s.len.toNat ≤ s.sizes.bmBytes) (hdst : s.dst.toNat + s.len.toNat ≤ s.sizes.bmBytes) :
    byteCommand dir false s = .next (s.afterBytes dir s.dst.toNat) := by
  have hsrcFits : s.bmSrcFits = true := inRange_eq_true.mpr hsrc
  have hdstFits : s.bmDstFits = true := inRange_eq_true.mpr hdst
  rw [byteCommand, hr, hsrcFits, hdstFits]
  rfl

/-- R114, R115: the checks of ENCBUF and DECBUF pass, whatever DST holds. -/
theorem bufferCommand_of_checks (dir : Direction) {s : State} (hr : s.cfg.rdy = true)
    (hsrc : s.src.toNat + s.len.toNat ≤ s.sizes.bmBytes) :
    bufferCommand dir false s = .next (s.afterBytes dir s.src.toNat) := by
  have hsrcFits : s.bmSrcFits = true := inRange_eq_true.mpr hsrc
  rw [bufferCommand, hr, hsrcFits]
  rfl

/-- Settles O51: the output is written in a row from DST, so a byte inside the row is its byte and a byte outside keeps
its value. -/
theorem byteCommandsWriteTheCipher : Obligations.ByteCommandsWriteTheCipher := by
  intro s i dir hr hi hsrc hdst
  refine ⟨s.afterBytes dir s.dst.toNat, ?next, fun j hj => s.bmAt_afterBytes_inside dir _ hj,
    fun a ha => s.bmAt_afterBytes_outside dir _ ha, rfl⟩
  case next =>
    rcases hi with ⟨rfl, rfl⟩ | ⟨rfl, rfl⟩
    all_goals exact byteCommand_of_checks _ hr hsrc hdst

/-- Settles O52: the output is written in a row from SRC, where it was read, and no check reads DST. -/
theorem bufferCommandsWriteInPlace : Obligations.BufferCommandsWriteInPlace := by
  intro s i dir hr hi hsrc
  refine ⟨s.afterBytes dir s.src.toNat, ?next, fun j hj => s.bmAt_afterBytes_inside dir _ hj,
    fun a ha => s.bmAt_afterBytes_outside dir _ ha, rfl⟩
  case next =>
    rcases hi with ⟨rfl, rfl⟩ | ⟨rfl, rfl⟩
    all_goals exact bufferCommand_of_checks _ hr hsrc

end Sys2Proof.Machine
end

section
/-! The statements of 60_exceptions.md: which check of a command fails first, what a command reports in STATUS when it ends in
an error and when it succeeds, and which steps change ESTK. -/

namespace Sys2Proof

/-! ### The checks of a command, in their order (R127)

The model checks inside each operation. Here the checks stand apart from the operations, one function for each error, and
`exec_err` ties them to the code that `exec` reports. -/

/-- R125: INIT wants a core that is not configured, every other command a configured one. -/
@[simp] def Instr.stateFails : Instr → Machine.State → Bool
  | .init _, s => s.cfg.rdy
  | _, s => !s.cfg.rdy

/-- R122: only HASH has an argument that can be bad. -/
@[simp] def Instr.argumentFails : Instr → Bool
  | .hash kind absent => decide (3 < kind) || absent
  | _ => false

/-- R123, R48: a sequence that is not absent does not fit its memory, the sum taken in natural numbers. -/
@[simp] def Instr.rangeFails : Instr → Machine.State → Bool
  | .init _, _ | .enc1, _ | .dec1, _ => false
  | .encw absent, s | .decw absent, s =>
    !absent && decide (s.sizes.wmWords < s.src.toNat + s.len.toNat ∨ s.sizes.wmWords < s.dst.toNat + s.len.toNat)
  | .encb absent, s | .decb absent, s =>
    !absent && decide (s.sizes.bmBytes < s.src.toNat + s.len.toNat ∨ s.sizes.bmBytes < s.dst.toNat + s.len.toNat)
  | .encbuf absent, s | .decbuf absent, s | .hash _ absent, s =>
    !absent && decide (s.sizes.bmBytes < s.src.toNat + s.len.toNat)

/-- R127: the code of the first check that fails. -/
def Instr.outcome (i : Instr) (s : Machine.State) : Machine.ErrCode :=
  if i.stateFails s then .state
  else if i.argumentFails then .invalidArgument
  else if i.rangeFails s then .range
  else .ok

section Outcome
variable {i : Instr} {s : Machine.State}

theorem Instr.outcome_eq_state (hstate : i.stateFails s = true) : i.outcome s = .state := if_pos hstate

theorem Instr.outcome_eq_invalidArgument (hstate : i.stateFails s = false) (harg : i.argumentFails = true) :
    i.outcome s = .invalidArgument := by
  rw [outcome, hstate, harg]
  rfl

theorem Instr.outcome_eq_range (hstate : i.stateFails s = false) (harg : i.argumentFails = false)
    (hrange : i.rangeFails s = true) : i.outcome s = .range := by
  rw [outcome, hstate, harg, hrange]
  rfl

theorem Instr.outcome_eq_ok (hstate : i.stateFails s = false) (harg : i.argumentFails = false)
    (hrange : i.rangeFails s = false) : i.outcome s = .ok := by
  rw [outcome, hstate, harg, hrange]
  rfl

theorem Instr.outcome_ne_invalidArgument (harg : i.argumentFails = false) : i.outcome s ≠ .invalidArgument := by
  rw [outcome, harg, if_neg Bool.false_ne_true]
  split_ifs <;> decide

theorem Instr.outcome_ne_range (hrange : i.rangeFails s = false) : i.outcome s ≠ .range := by
  rw [outcome, hrange, if_neg Bool.false_ne_true]
  split_ifs <;> decide

end Outcome

/-- R132: what a command that succeeds reports in RABS. Of the commands with an ABS bit, HASH does not succeed when it is 1. -/
def Instr.reportedAbsent : Instr → Bool
  | .encw absent | .decw absent | .encb absent | .decb absent | .encbuf absent | .decbuf absent => absent
  | .init _ | .hash _ _ | .enc1 | .dec1 => false

end Sys2Proof

namespace Sys2Proof.Machine

theorem HashKind.value_le (k : HashKind) : k.value ≤ 3 := by cases k <;> decide

/-- R48: one of the two ranges of WM does not fit. -/
theorem State.wmFits_eq_false {s : State} : (s.wmSrcFits && s.wmDstFits) = false ↔
    s.sizes.wmWords < s.src.toNat + s.len.toNat ∨ s.sizes.wmWords < s.dst.toNat + s.len.toNat := by
  rw [Bool.and_eq_false_iff, State.wmSrcFits, State.wmDstFits, inRange_eq_false, inRange_eq_false]

/-- R48: one of the two ranges of BM does not fit. -/
theorem State.bmFits_eq_false {s : State} : (s.bmSrcFits && s.bmDstFits) = false ↔
    s.sizes.bmBytes < s.src.toNat + s.len.toNat ∨ s.sizes.bmBytes < s.dst.toNat + s.len.toNat := by
  rw [Bool.and_eq_false_iff, State.bmSrcFits, State.bmDstFits, inRange_eq_false, inRange_eq_false]

/-- R127: ERR is the code of the first check that fails. -/
theorem exec_err {i : Instr} {s t : State} (hx : exec i s = .next t) : t.status.err = i.outcome s := by
  symm
  cases i with
  | init e =>
    rcases execInit_cases hx with ⟨hr, rfl⟩ | ⟨hr, rfl⟩
    · exact Instr.outcome_eq_state hr
    · exact Instr.outcome_eq_ok hr rfl rfl
  | hash kind absent =>
    rcases execHash_cases hx with ⟨hr, rfl⟩ | ⟨hr, hbad, rfl⟩ | ⟨hr, hk, rfl, hf, rfl⟩ | ⟨k, hr, rfl, rfl, hf, rfl⟩
    · exact Instr.outcome_eq_state (by simp [hr])
    · exact Instr.outcome_eq_invalidArgument (by simp [hr]) (by simpa using hbad)
    · exact Instr.outcome_eq_range (by simp [hr]) (by simpa using hk) (by simpa [State.bmSrcFits] using hf)
    · exact Instr.outcome_eq_ok (by simp [hr]) (by simpa using k.value_le) (by simpa [State.bmSrcFits] using hf)
  | enc1 | dec1 =>
    rcases singleCommand_cases hx with ⟨hr, rfl⟩ | ⟨hr, rfl⟩
    · exact Instr.outcome_eq_state (by simp [hr])
    · exact Instr.outcome_eq_ok (by simp [hr]) rfl rfl
  | encw absent | decw absent =>
    rcases wordCommand_cases hx with ⟨hr, rfl⟩ | ⟨hr, rfl, rfl⟩ | ⟨hr, rfl, hf, rfl⟩ | ⟨hr, rfl, hf, rfl⟩
    · exact Instr.outcome_eq_state (by simp [hr])
    · exact Instr.outcome_eq_ok (by simp [hr]) rfl rfl
    · exact Instr.outcome_eq_range (by simp [hr]) rfl (by simpa using State.wmFits_eq_false.mp hf)
    · exact Instr.outcome_eq_ok (by simp [hr]) rfl (by simpa [State.wmSrcFits, State.wmDstFits] using hf)
  | encb absent | decb absent =>
    rcases byteCommand_cases hx with ⟨hr, rfl⟩ | ⟨hr, rfl, rfl⟩ | ⟨hr, rfl, hf, rfl⟩ | ⟨hr, rfl, hf, rfl⟩
    · exact Instr.outcome_eq_state (by simp [hr])
    · exact Instr.outcome_eq_ok (by simp [hr]) rfl rfl
    · exact Instr.outcome_eq_range (by simp [hr]) rfl (by simpa using State.bmFits_eq_false.mp hf)
    · exact Instr.outcome_eq_ok (by simp [hr]) rfl (by simpa [State.bmSrcFits, State.bmDstFits] using hf)
  | encbuf absent | decbuf absent =>
    rcases bufferCommand_cases hx with ⟨hr, rfl⟩ | ⟨hr, rfl, rfl⟩ | ⟨hr, rfl, hf, rfl⟩ | ⟨hr, rfl, hf, rfl⟩
    · exact Instr.outcome_eq_state (by simp [hr])
    · exact Instr.outcome_eq_ok (by simp [hr]) rfl rfl
    · exact Instr.outcome_eq_range (by simp [hr]) rfl (by simpa [State.bmSrcFits] using hf)
    · exact Instr.outcome_eq_ok (by simp [hr]) rfl (by simpa [State.bmSrcFits] using hf)

/-! ### What a command reports (R129, R132) -/

/-- R129, R132: a command makes the error report, or completes and leaves ESTK. -/
theorem exec_reports {i : Instr} {s t : State} (hx : exec i s = .next t) :
    (t.status.err ≠ .ok ∧ t = s.raiseError t.status.err) ∨
    (t.status.err = .ok ∧ t.status.rabs = i.reportedAbsent ∧ t.status.estk = s.status.estk) := by
  rcases exec_cases hx with ⟨e, he, rfl⟩ | ⟨e, rfl, -, rfl⟩ | ⟨k, rfl, -, -, rfl⟩ | ⟨dir, hi, -, rfl⟩ | ⟨hi, -, rfl⟩ |
    ⟨dir, hi, -, -, rfl⟩ | ⟨dir, hi, -, -, rfl⟩ | ⟨dir, hi, -, -, rfl⟩
  · exact .inl ⟨he, rfl⟩
  · exact .inr ⟨rfl, rfl, rfl⟩
  · exact .inr ⟨rfl, rfl, rfl⟩
  · rcases hi with ⟨rfl, -⟩ | ⟨rfl, -⟩ <;> exact .inr ⟨rfl, rfl, rfl⟩
  · rcases hi with rfl | rfl | rfl | rfl | rfl | rfl <;> exact .inr ⟨rfl, rfl, rfl⟩
  all_goals rcases hi with ⟨rfl, -⟩ | ⟨rfl, -⟩ <;> exact .inr ⟨rfl, rfl, rfl⟩

theorem exec_eq_raiseError_of_err_ne_ok {i : Instr} {s t : State} (hx : exec i s = .next t) (he : t.status.err ≠ .ok) :
    t = s.raiseError t.status.err := by
  rcases exec_reports hx with ⟨-, h⟩ | ⟨hok, -, -⟩
  · exact h
  · exact absurd hok he

/-- R129: a check that fails decides the next state. -/
theorem exec_of_outcome {i : Instr} {s : State} {e : ErrCode} (h : i.outcome s = e) (he : e ≠ .ok) :
    exec i s = .next (s.raiseError e) := by
  obtain ⟨t, ht⟩ := exec_answers i s
  have herr : t.status.err = e := (exec_err ht).trans h
  rw [ht, exec_eq_raiseError_of_err_ne_ok ht (herr ▸ he), herr]

/-! ### What a CMD write reports (R129, R131) -/

theorem command_pending {c : Word} {s t : State} (hx : command c s = .next t) : t.pending = s.pending := by
  cases hd : decode c with
  | ok i =>
    rw [command_of_decode_ok hd] at hx
    obtain ⟨_, _, _, _, _, _, rfl⟩ := exec_writes_only hx
    rfl
  | error e =>
    rw [command_of_decode_error hd] at hx
    cases hx
    rfl

/-- R129: the error report of a word written to CMD, legal or not. -/
theorem command_reports {c : Word} {s t : State} (hx : command c s = .next t) :
    (t.status.err ≠ .ok ∧ t = s.raiseError t.status.err) ∨ (t.status.err = .ok ∧ t.status.estk = s.status.estk) := by
  cases hd : decode c with
  | ok i =>
    rw [command_of_decode_ok hd] at hx
    exact (exec_reports hx).imp_right fun ⟨hok, _, hestk⟩ => ⟨hok, hestk⟩
  | error e =>
    rw [command_of_decode_error hd] at hx
    cases hx
    exact .inl ⟨nofun, rfl⟩

theorem command_eq_raiseError_of_err_ne_ok {c : Word} {s t : State} (hx : command c s = .next t)
    (he : t.status.err ≠ .ok) : t = s.raiseError t.status.err := by
  rcases command_reports hx with ⟨-, h⟩ | ⟨hok, -⟩
  · exact h
  · exact absurd hok he

/-- R131: a command sets ESTK when it fails and otherwise leaves it. -/
theorem command_estk {c : Word} {s t : State} (hx : command c s = .next t) :
    t.status.estk = true ↔ s.status.estk = true ∨ t.status.err ≠ .ok := by
  rcases command_reports hx with ⟨he, h⟩ | ⟨hok, hestk⟩
  · have hset : t.status.estk = true := congrArg (fun u => u.status.estk) h
    simp [hset, he]
  · simp [hok, hestk]

/-- R18, R131: an access other than reset leaves STATUS. -/
theorem hostAccess_status {a : HostAction} {s t : State} (hx : hostAccess a s = .next t) (ha : a ≠ .reset) :
    t.status = s.status := by
  rcases hostAccess_cases hx with ⟨o, r, -, -, rfl⟩ | ⟨o, r, v, -, -, rfl⟩ | ⟨j, -, -, -, rfl⟩ | ⟨j, v, -, -, rfl⟩ |
    ⟨j, -, -, rfl⟩ | ⟨j, v, -, -, rfl⟩ | ⟨b, -, -, rfl⟩ | ⟨b, v, -, -, rfl⟩ | ⟨rfl, -⟩
  pick_goal 9
  · exact absurd rfl ha
  all_goals simp

theorem step_of_cmdWrite_answers {s : State} {c : Word} {rest : List HostAction}
    (hp : s.pending = .regWrite 0 32 c :: rest) : ∃ t, step s = .next t := by
  rw [step_of_cmdWrite hp]
  exact command_answers c _

/-! ### The obligations -/

/-- Settles O8: the command of the word answers (`command_answers`) and leaves the host's later actions. -/
theorem everyCmdWriteCompletes : Obligations.EveryCmdWriteCompletes := by
  intro s c rest hp
  obtain ⟨t, ht⟩ := step_of_cmdWrite_answers hp
  exact ⟨t, ht, command_pending (step_of_cmdWrite hp ▸ ht)⟩

/-- Settles O11: the codes of the ten commands are those of `Instr.outcome`, which `exec_err` says that they report. -/
theorem commandOutcomeFollowsThePriority : Obligations.CommandOutcomeFollowsThePriority := by
  refine ⟨fun s c rest e hp hd => ?illegal, fun i s => ?legal⟩
  case illegal => exact ⟨_, (step_of_cmdWrite hp).trans (command_of_decode_error hd _), rfl⟩
  case legal =>
    obtain ⟨t, ht⟩ := exec_answers i s
    refine ⟨t, ht, (exec_err ht).trans ?_⟩
    cases i with
    | init e | enc1 | dec1 => simp [Instr.outcome]
    | hash kind absent | encw absent | decw absent | encb absent | decb absent | encbuf absent | decbuf absent =>
      cases absent <;> simp [Instr.outcome]

/-- Settles O12: a command that does not end with OK leaves the error report and nothing else. -/
theorem errorsChangeOnlyStatus : Obligations.ErrorsChangeOnlyStatus :=
  ⟨fun _ _ _ hx he => exec_eq_raiseError_of_err_ne_ok hx he,
    fun _ _ _ _ hp hx he => command_eq_raiseError_of_err_ne_ok ((step_of_cmdWrite hp).symm.trans hx) he,
    fun _ _ _ hp => step_of_cmdWrite_answers hp⟩

/-- Settles O13: the report of a command that ends with OK, command by command. -/
theorem successReportsAbsenceAndLeavesEstk : Obligations.SuccessReportsAbsenceAndLeavesEstk := by
  refine ⟨rfl, fun i s t hx he => ?_⟩
  obtain ⟨-, hrabs, hestk⟩ := (exec_reports hx).resolve_left fun ⟨hne, _⟩ => hne he
  refine ⟨hestk, hrabs.trans ?_⟩
  cases i <;> rfl

/-- Settles O14: a CMD write sets or leaves ESTK (`command_estk`), reset clears it, and no other access touches STATUS. -/
theorem estkIsStickyUntilReset : Obligations.EstkIsStickyUntilReset := by
  intro s t a rest hp hx
  cases hc : commandWord? a with
  | some c =>
    obtain rfl := commandWord?_eq_some.mp hc
    have hestk := command_estk ((step_of_cmdWrite hp).symm.trans hx)
    exact ⟨nofun, fun _ => by simpa using hestk⟩
  | none =>
    have hacc := hostAccess_of_step hp hc hx
    refine ⟨?reset, fun ha => ?other⟩
    case reset =>
      rintro rfl
      cases hacc
      rfl
    case other =>
      have hstatus : t.status = s.status := hostAccess_status (s := s.withPending rest) hacc ha
      have hcmd : ¬ ∃ c, a = .regWrite 0 32 c := by
        rintro ⟨c, rfl⟩
        cases hc
      simp [hstatus, hcmd]

/-- Settles O9: with no action pending `step` has one branch. -/
theorem idleEngineKeepsItsState : Obligations.IdleEngineKeepsItsState := by
  intro s hp
  rw [step, hp]

/-- Settles O15: the first check fails, and decides. -/
theorem stateErrorBeforeAndAfterInit : Obligations.StateErrorBeforeAndAfterInit := by
  refine ⟨rfl, fun s e hr => exec_of_outcome (Instr.outcome_eq_state hr) nofun, fun s i hr hi => ?other⟩
  case other =>
    have hfails : i.stateFails s = true := by
      cases i with
      | init e => exact absurd rfl (hi e)
      | _ => simp [hr]
    exact exec_of_outcome (Instr.outcome_eq_state hfails) nofun

/-- R122: on a configured core a bad argument of HASH decides. -/
theorem exec_hash_of_bad_argument {s : State} {kind : Nat} {absent : Bool} (hr : s.cfg.rdy = true)
    (hbad : 3 < kind ∨ absent = true) : exec (.hash kind absent) s = .next (s.raiseError .invalidArgument) :=
  exec_of_outcome (Instr.outcome_eq_invalidArgument (by simp [hr]) (by simpa using hbad)) nofun

/-- Settles O16: no command but HASH has an argument check. -/
theorem invalidArgumentIsHashOnly : Obligations.InvalidArgumentIsHashOnly := by
  refine ⟨rfl, fun s kind absent hr hbad => exec_hash_of_bad_argument hr hbad, fun i s t hx hi => ?other⟩
  case other =>
    have harg : i.argumentFails = false := by
      cases i with
      | hash kind absent => exact absurd rfl (hi kind absent)
      | _ => rfl
    rw [exec_err hx]
    exact Instr.outcome_ne_invalidArgument harg

/-- Settles O17: with the checks before it passed the range check decides, and with ABS = 1 there is no range to check. -/
theorem rangeErrors : Obligations.RangeErrors := by
  refine ⟨rfl, fun s i hr hi hrange => ?words, fun s i hr hi hrange => ?bytes, fun s i hr hi hrange => ?sources,
    fun s t i hi hx => ?absent⟩
  case words | bytes =>
    rcases hi with rfl | rfl
    all_goals exact exec_of_outcome (Instr.outcome_eq_range (by simp [hr]) rfl (by simpa using hrange)) nofun
  case sources =>
    rcases hi with rfl | rfl | ⟨kind, hkind, rfl⟩
    iterate 2 exact exec_of_outcome (Instr.outcome_eq_range (by simp [hr]) rfl (by simpa using hrange)) nofun
    exact exec_of_outcome (Instr.outcome_eq_range (by simp [hr]) (by simpa using hkind) (by simpa using hrange)) nofun
  case absent =>
    have hfits : i.rangeFails s = false := by
      rcases hi with rfl | rfl | rfl | rfl | rfl | rfl | ⟨kind, rfl⟩ <;> rfl
    rw [exec_err hx]
    exact Instr.outcome_ne_range hfits

/-- Settles O18: with ABS = 1 the six commands read nothing but CFG.RDY (`exec_absent`), and HASH has a bad argument. -/
theorem absentInputPassesThrough : Obligations.AbsentInputPassesThrough :=
  ⟨fun s _ hr hi => (exec_absent s hi).trans (if_pos hr), fun _ _ hr => exec_hash_of_bad_argument hr (.inr rfl)⟩

end Sys2Proof.Machine
end
